-- ==== Sys2Proof/Word.lean ====
section
/-! DEFINITION. The word types of the block: the packed word of the bit-plane array and of the GPIO
port (32 bits, rules R8 and R30), the command word (64 bits, rule R80), and an 8-bit operand field. -/

namespace Sys2Proof

/-- One packed word of the bit-plane array (rule R8), and one port register value (rule R30). -/
abbrev Word := BitVec 32

/-- One command word (rule R80). -/
abbrev Cmd := BitVec 64

/-- One byte-wide operand field of a command (rules R82 to R85). -/
abbrev Field := BitVec 8

end Sys2Proof
end

