-- ==== Sys2Proof/Syntax.lean ====
section
/-! DEFINITION. The seven commands of the block (rule R86), one constructor per row of
spec/opcode_table.json. Operand fields are kept at the width the command word gives them (rule R85), so
that an out-of-range operand can be expressed and given the outcome the spec gives it. -/

namespace Sys2Proof

/-- A command that has passed the opcode and zero-field tests of rule R88. -/
inductive Instr where
  /-- INIT: construct the driver (rule R170). -/
  | init
  /-- QUANT v: read the quantizer table (rule R103). -/
  | quant (v : Field)
  /-- SETPIX x, y, r, g, b: OR one pixel into the write bank (rule R112). -/
  | setpix (x y r g b : Field)
  /-- CLEAR: zero the write bank (rule R116). -/
  | clear
  /-- SWAP: exchange the display and write roles (rule R118). -/
  | swap
  /-- REFRESH: one full binary-code-modulation sweep (rule R150). -/
  | refresh
  /-- RDW role, plane, row, colour, half: read one word of a bank (rule R120). -/
  | rdw (role plane row colour half : Field)
  deriving DecidableEq, Repr

/-- The three colours, numbered R = 0, G = 1, B = 2 (rule R20, decision D5). -/
inductive Colour where
  | red
  | green
  | blue
  deriving DecidableEq, Repr

end Sys2Proof
end

