-- ==== Sys2Proof/Machine/Ranges.lean ====
section
/-! DEFINITION. The legal operand ranges of SETPIX and RDW (rules R83, R84), as the range check of the
decode order reads them (rule R88, test 3). -/

namespace Sys2Proof.Machine

/-- SETPIX: "x ∈ [0,64), y ∈ [0,32)" (rule R83). -/
def coordLegal (x y : Field) : Bool :=
  decide (x.toNat < 64) && decide (y.toNat < 32)

/-- RDW: role, plane, row, colour and half below 2, N, 32, 3 and 2 (rule R84). -/
def indexLegal (n : Nat) (role plane row colour half : Field) : Bool :=
  decide (role.toNat < 2) && decide (plane.toNat < n) && decide (row.toNat < 32)
    && decide (colour.toNat < 3) && decide (half.toNat < 2)

end Sys2Proof.Machine
end

