-- ==== Sys2Proof/WellFormed.lean ====
section
/-! DEFINITION. When a command's operands are in the legal ranges of rules R82 to R84. The bound of RDW's
plane operand is the configuration constant N (rule R120), so the check takes N. A command that fails it
still decodes; the block records a fault for it (rule R88, test 3). -/

namespace Sys2Proof

/-- Every operand in its legal range, for a block of `n` planes (rules R82 to R84). -/
def Instr.WellFormed (n : Nat) : Instr → Bool
  | .init => true
  | .quant _ => true
  | .setpix x y _ _ _ => Machine.coordLegal x y
  | .clear => true
  | .swap => true
  | .refresh => true
  | .rdw role plane row colour half => Machine.indexLegal n role plane row colour half

end Sys2Proof
end

