-- ==== Sys2Proof/Decode.lean ====
section
/-! DEFINITION. The command decoder, total on 64-bit words (rules R80 to R89), and the encoder written from
the same format tables. Tests 1 and 2 of rule R88 are made here, test 3 (the operand ranges) in the meaning
of each command. -/

namespace Sys2Proof

/-- Why a word is no command (rule R88, tests 1 and 2). Both are the fault cause ILLEGAL_COMMAND. -/
inductive Illegal where
  /-- Test 1: the opcode is not in 0x01..0x07 (rule R89). -/
  | reservedOpcode (op : Field)
  /-- Test 2: the format's zero field holds a nonzero bit (rule R89). -/
  | nonzeroZeroField (op : Field)
  deriving DecidableEq, Repr

/-- `cmd[63:56]` (rule R80). -/
def opcodeOf (w : Cmd) : Field :=
  w.extractLsb' 56 8

/-- The byte-wide operand field whose lowest bit is `lo` (rule R85). -/
def fieldAt (w : Cmd) (lo : Nat) : Field :=
  w.extractLsb' lo 8

/-- Test 2 of rule R88: the zero field of `len` bits from bit `lo` up must be 0. -/
def guardZero (w : Cmd) (lo len : Nat) (i : Instr) : Except Illegal Instr :=
  if w.extractLsb' lo len = 0#len then .ok i else .error (.nonzeroZeroField (opcodeOf w))

/-- Decode one command word: the opcode, then the format's zero field, then the operand fields
(rules R81 to R86, R88). -/
def decode (w : Cmd) : Except Illegal Instr :=
  if opcodeOf w = 0x01#8 then guardZero w 0 56 .init
  else if opcodeOf w = 0x02#8 then guardZero w 8 48 (.quant (fieldAt w 0))
  else if opcodeOf w = 0x03#8 then
    guardZero w 24 16
      (.setpix (fieldAt w 48) (fieldAt w 40) (fieldAt w 16) (fieldAt w 8) (fieldAt w 0))
  else if opcodeOf w = 0x04#8 then guardZero w 0 56 .clear
  else if opcodeOf w = 0x05#8 then guardZero w 0 56 .swap
  else if opcodeOf w = 0x06#8 then guardZero w 0 56 .refresh
  else if opcodeOf w = 0x07#8 then
    guardZero w 0 16
      (.rdw (fieldAt w 48) (fieldAt w 40) (fieldAt w 32) (fieldAt w 24) (fieldAt w 16))
  else .error (.reservedOpcode (opcodeOf w))

/-- A byte-wide field placed with its lowest bit at bit `lo` of a command word (rule R85). -/
def place (f : Field) (lo : Nat) : Cmd :=
  f.setWidth 64 <<< lo

/-- A format Z word: the opcode, all other bits zero (rule R81). -/
def formatZ (op : Field) : Cmd :=
  place op 56

/-- A format Q word (rule R82). -/
def formatQ (op v : Field) : Cmd :=
  place op 56 ||| place v 0

/-- A format P word (rule R83). -/
def formatP (op x y r g b : Field) : Cmd :=
  place op 56 ||| place x 48 ||| place y 40 ||| place r 16 ||| place g 8 ||| place b 0

/-- A format W word (rule R84). -/
def formatW (op role plane row colour half : Field) : Cmd :=
  place op 56 ||| place role 48 ||| place plane 40 ||| place row 32 ||| place colour 24 ||| place half 16

/-- The command word of a command (rules R81 to R86). It is what the fault record keeps (rule R181). -/
def encode : Instr → Cmd
  | .init => formatZ 0x01#8
  | .quant v => formatQ 0x02#8 v
  | .setpix x y r g b => formatP 0x03#8 x y r g b
  | .clear => formatZ 0x04#8
  | .swap => formatZ 0x05#8
  | .refresh => formatZ 0x06#8
  | .rdw role plane row colour half => formatW 0x07#8 role plane row colour half

/-- The `mask` column of rule R86's table, for the row a command belongs to. -/
def tableMask : Instr → Cmd
  | .init => 0xFFFFFFFFFFFFFFFF#64
  | .quant _ => 0xFFFFFFFFFFFFFF00#64
  | .setpix _ _ _ _ _ => 0xFF0000FFFF000000#64
  | .clear => 0xFFFFFFFFFFFFFFFF#64
  | .swap => 0xFFFFFFFFFFFFFFFF#64
  | .refresh => 0xFFFFFFFFFFFFFFFF#64
  | .rdw _ _ _ _ _ => 0xFF0000000000FFFF#64

/-- The `match` column of rule R86's table, for the row a command belongs to. -/
def tableMatch : Instr → Cmd
  | .init => 0x0100000000000000#64
  | .quant _ => 0x0200000000000000#64
  | .setpix _ _ _ _ _ => 0x0300000000000000#64
  | .clear => 0x0400000000000000#64
  | .swap => 0x0500000000000000#64
  | .refresh => 0x0600000000000000#64
  | .rdw _ _ _ _ _ => 0x0700000000000000#64

/-- The 64-bit command word whose low `nbits` bits are `w`. The table numbers bits as rule R80 does: the
command is one word, bit 0 its least significant. -/
def cmdOfTable (nbits w : Nat) : Cmd :=
  BitVec.ofNat 64 (w % 2 ^ nbits)

/-- What the decoder reads from a table row's word. -/
def decodeTableWord (nbits w : Nat) : Option Instr :=
  match decode (cmdOfTable nbits w) with
  | .ok i => some i
  | .error _ => none

end Sys2Proof
end

