-- ==== Sys2Proof/Machine/Memory.lean ====
section
/-! DEFINITION. The bit-plane array as a sparse list of (word offset, word) (rules R20, R55): offsets strictly
rising, no zero word listed, and an unlisted word reads 0, the reset value of every word (rule R20). The
unit is the 32-bit word, since no operation reads or writes part of one (rules R52, R56). -/

namespace Sys2Proof.Machine

/-- The array's contents: listed words by offset. -/
abbrev Memory := List (Nat × Word)

/-- What a word not listed reads as: the reset value (rule R20). -/
def unlistedWord : Word :=
  0#32

/-- `MemRead(addr, 1)` (rules R15, R55). -/
def readWord : Memory → Nat → Word
  | [], _ => unlistedWord
  | e :: rest, addr => if e.1 = addr then e.2 else readWord rest addr

/-- Put a word before the first listed offset that is not below its own. -/
def insertWord (addr : Nat) (v : Word) : Memory → Memory
  | [] => [(addr, v)]
  | e :: rest => if e.1 < addr then e :: insertWord addr v rest else (addr, v) :: e :: rest

/-- The contents without one offset. -/
def dropWord (m : Memory) (addr : Nat) : Memory :=
  m.filter (fun e => decide (e.1 ≠ addr))

/-- `MemWrite(addr, 1, v)` (rules R15, R55). Writing what an unlisted word reads as removes the entry. -/
def writeWord (m : Memory) (addr : Nat) (v : Word) : Memory :=
  if v = unlistedWord then dropWord m addr else insertWord addr v (dropWord m addr)

/-- Write 0 to the `len` words from `lo` up (rule R116). -/
def zeroRange (m : Memory) (lo len : Nat) : Memory :=
  m.filter (fun e => decide (e.1 < lo ∨ lo + len ≤ e.1))

/-- The canonical form: offsets strictly rising, no word listed that equals what an unlisted one reads. -/
def memoryWf (m : Memory) : Bool :=
  decide (m.Pairwise (fun p q => p.1 < q.1)) && m.all (fun e => decide (e.2 ≠ unlistedWord))

/-- Every listed offset is below `size`. -/
def memoryWithin (size : Nat) (m : Memory) : Bool :=
  m.all (fun e => decide (e.1 < size))

end Sys2Proof.Machine
end

