-- ==== Sys2Proof/Config.lean ====
section
/-! DEFINITION. What an implementation fixes when the block is built (rules R6 to R11, R37): types only.
The values of the reference configuration and the conditions on a legal one stand in
Machine/Reference.lean. The block has no free value: every result is stated by the spec. -/

namespace Sys2Proof

/-- The fourteen logical signals of the port (rule R9). -/
inductive Signal where
  | r1 | g1 | b1
  | r2 | g2 | b2
  | a | b | c | d | e
  | clk | lat | oe
  deriving DecidableEq, Repr

/-- PINMAP: the bit offset of each signal in the port's registers (rule R9). The offsets are OPEN. -/
structure PinMap where
  r1 : Nat
  g1 : Nat
  b1 : Nat
  r2 : Nat
  g2 : Nat
  b2 : Nat
  a : Nat
  b : Nat
  c : Nat
  d : Nat
  e : Nat
  clk : Nat
  lat : Nat
  oe : Nat
  deriving DecidableEq, Repr

/-- The implementation parameters (rules R6 to R11). -/
structure Config where
  /-- N, the number of bit planes (rule R6). -/
  n : Nat
  /-- LUT, the quantizer table: 256 entries of N bits (rules R7, R34, R100), each held in 8 bits. -/
  lut : List (BitVec 8)
  /-- PINMAP (rule R9). -/
  pins : PinMap
  /-- PORT_SET_ADDR (rule R9). -/
  portSetAddr : Nat
  /-- PORT_CLR_ADDR (rule R9). -/
  portClrAddr : Nat
  /-- PORT_DIR_ADDR (rule R9). -/
  portDirAddr : Nat
  /-- T_SETTLE_MIN (rule R10), in a unit of time of the platform's choosing. -/
  settleMin : Nat
  /-- DRAW_REFRESH_INTERVAL (rule R11). -/
  drawInterval : Nat
  deriving DecidableEq, Repr

end Sys2Proof
end

