-- ==== Sys2Proof/Machine/Pins.lean ====
section
/-! DEFINITION. The fourteen signals, what each carries (rules R136, R137), and the masks a pin map makes of
sets of them (rule R9). -/

namespace Sys2Proof.Machine

/-- All fourteen signals, in the order of rule R9. -/
def allSignals : List Signal :=
  [.r1, .g1, .b1, .r2, .g2, .b2, .a, .b, .c, .d, .e, .clk, .lat, .oe]

/-- The six data lines (rule R133). -/
def dataLines : List Signal :=
  [.r1, .g1, .b1, .r2, .g2, .b2]

/-- The five address lines, A least significant (rule R136). -/
def addrLines : List Signal :=
  [.a, .b, .c, .d, .e]

/-- The data line of a colour for the upper row, row a (rule R136). -/
def upperLine : Colour → Signal
  | .red => .r1
  | .green => .g1
  | .blue => .b1

/-- The data line of a colour for the lower row, row a + 16 (rule R136). -/
def lowerLine : Colour → Signal
  | .red => .r2
  | .green => .g2
  | .blue => .b2

/-- The bit of the row address that an address line carries (rule R136). Other lines carry none. -/
def addrBit : Signal → Option Nat
  | .a => some 0
  | .b => some 1
  | .c => some 2
  | .d => some 3
  | .e => some 4
  | _ => none

/-- PIN[s] (rule R9). -/
def pinOf (pm : PinMap) : Signal → Nat
  | .r1 => pm.r1
  | .g1 => pm.g1
  | .b1 => pm.b1
  | .r2 => pm.r2
  | .g2 => pm.g2
  | .b2 => pm.b2
  | .a => pm.a
  | .b => pm.b
  | .c => pm.c
  | .d => pm.d
  | .e => pm.e
  | .clk => pm.clk
  | .lat => pm.lat
  | .oe => pm.oe

/-- `mask(S)`: bit PIN[s] set for each s of S, every other bit clear (rule R9). -/
def maskOf (pm : PinMap) : List Signal → Word
  | [] => 0#32
  | s :: rest => BitVec.twoPow 32 (pinOf pm s) ||| maskOf pm rest

/-- The level of a signal in a value of the output latch (rule R30). -/
def levelOf (pm : PinMap) (out : Word) (s : Signal) : Bool :=
  out.getLsbD (pinOf pm s)

/-- A pin map the spec gives a meaning to: offsets pairwise distinct and below PORT_W = 32 (rule R9,
decision D30). -/
def pinsLegal (pm : PinMap) : Bool :=
  decide ((allSignals.map (pinOf pm)).Nodup) && allSignals.all (fun s => decide (pinOf pm s < 32))

end Sys2Proof.Machine
end

