-- ==== Sys2Proof/Machine/Ports.lean ====
section
/-! DEFINITION. Port events and what each does to the two latches of the GPIO port (rules R30, R130 to R132),
with the time and bus views of an event list (rules R10, R30, R132). -/

namespace Sys2Proof.Machine

/-- A port event (rule R130). -/
inductive Event where
  /-- A write of `m` to the set register. -/
  | set (m : Word)
  /-- A write of `m` to the clear register. -/
  | clr (m : Word)
  /-- A write to the direction register that makes the signals of `m` outputs (reset only). -/
  | dir (m : Word)
  /-- A settle delay of `n` no-op cycles. -/
  | settle (n : Nat)
  deriving DecidableEq, Repr

/-- The three registers of the port (rule R30). -/
inductive PortReg where
  | set
  | clr
  | dir
  deriving DecidableEq, Repr

/-- The event that a write of `m` to a port register appends (rule R131). -/
def writeEvent : PortReg → Word → Event
  | .set, m => .set m
  | .clr, m => .clr m
  | .dir, m => .dir m

/-- OUT after one event: write-one-to-set and write-one-to-clear (rules R30, R131). -/
def driveOut (out : Word) : Event → Word
  | .set m => out ||| m
  | .clr m => out &&& ~~~m
  | .dir _ => out
  | .settle _ => out

/-- DIRV after one event (rules R30, R131). -/
def driveDir (dirv : Word) : Event → Word
  | .set _ => dirv
  | .clr _ => dirv
  | .dir m => dirv ||| m
  | .settle _ => dirv

/-- OUT after a list of events, in order. -/
def outAfter (out : Word) (es : List Event) : Word :=
  es.foldl driveOut out

/-- DIRV after a list of events, in order. -/
def dirAfter (dirv : Word) (es : List Event) : Word :=
  es.foldl driveDir dirv

/-- Whether an event is a register write (rule R139 counts these apart from the settles). -/
def Event.isWrite : Event → Bool
  | .set _ => true
  | .clr _ => true
  | .dir _ => true
  | .settle _ => false

/-- The no-op cycles of an event (rule R132). -/
def Event.cycles : Event → Nat
  | .set _ => 0
  | .clr _ => 0
  | .dir _ => 0
  | .settle n => n

/-- The mask an event writes (none for a settle). -/
def Event.mask : Event → Word
  | .set m => m
  | .clr m => m
  | .dir m => m
  | .settle _ => 0#32

/-- The no-op cycles of a list of events (rule R139). -/
def cyclesOf (es : List Event) : Nat :=
  (es.map Event.cycles).sum

/-- The least time the settle delays of a list of events take (rules R10, R132): a lower bound, never an
upper one. -/
def settleTime (cfg : Config) (es : List Event) : Nat :=
  cyclesOf es * cfg.settleMin

/-- The write an event makes on the platform's bus: the configured address of its register and the mask
(rules R9, R30). A settle writes nothing. -/
def busWrite (cfg : Config) : Event → Option (Nat × Word)
  | .set m => some (cfg.portSetAddr, m)
  | .clr m => some (cfg.portClrAddr, m)
  | .dir m => some (cfg.portDirAddr, m)
  | .settle _ => none

end Sys2Proof.Machine
end

