-- ==== Sys2Proof/Machine/GammaTable.lean ====
section
/-! DEFINITION. The quantizer table LUT: its read (rule R100), the properties every legal table has
(rule R101), the recipe that fills it (rule R102) and the integer form of the recipe for GAMMA = 2. -/

namespace Sys2Proof.Machine

/-- `LUT[v]` (rule R100). A legal table has 256 entries, so the default is never read. -/
def lutAt (cfg : Config) (v : Field) : BitVec 8 :=
  cfg.lut.getD v.toNat 0#8

/-- `2^N − 1`, the largest quantized value (rule R101). -/
def maxLevel (n : Nat) : Nat :=
  2 ^ n - 1

/-- P_MONO for neighbouring entries (rule R101). -/
def nonDecreasing : List (BitVec 8) → Bool
  | a :: b :: rest => decide (a.toNat ≤ b.toNat) && nonDecreasing (b :: rest)
  | _ => true

/-- 256 entries with P_ZERO, P_MAX, P_MONO and P_RANGE (rules R100, R101). -/
def lutLegal (cfg : Config) : Bool :=
  decide (cfg.lut.length = 256)
    && decide ((lutAt cfg 0#8).toNat = 0)
    && decide ((lutAt cfg 255#8).toNat = maxLevel cfg.n)
    && nonDecreasing cfg.lut
    && cfg.lut.all (fun q => decide (q.toNat ≤ maxLevel cfg.n))

/-- The recipe of rule R102 for a real gamma exponent, in exact real arithmetic:
`LUT[v] = min(2^N − 1, floor((v / 255) ^ GAMMA × 255 × (2^N − 1) / 255))`. -/
def FilledByRecipe (γ : ℝ) (cfg : Config) : Prop :=
  ∀ v : Field, (lutAt cfg v).toNat =
    min (maxLevel cfg.n) ⌊((v.toNat : ℝ) / 255) ^ γ * 255 * ((2 : ℝ) ^ cfg.n - 1) / 255⌋₊

/-- "For GAMMA = 2 the recipe is the integer formula LUT[v] = floor(v × v × (2^N − 1) / 65025)"
(rule R102). -/
def gamma2Entry (n v : Nat) : Nat :=
  v * v * maxLevel n / 65025

/-- The table of GAMMA = 2 for `n` planes (rules R102, R104). -/
def gamma2Lut (n : Nat) : List (BitVec 8) :=
  (List.range 256).map (fun v => BitVec.ofNat 8 (gamma2Entry n v))

end Sys2Proof.Machine
end

