-- ==== Sys2Proof/Machine/Reference.lean ====
section
/-! DEFINITION. When a configuration is legal (rules R6, R7, R9, R10, R11), and the reference configuration
of spec/95_test_vectors.md, section 0: N = 5, GAMMA = 2, REFMAP, DRAW_REFRESH_INTERVAL = 4. No meaning
depends on the reference values: every operation reads the configuration its state carries. -/

namespace Sys2Proof.Machine

/-- REFMAP, the example pin map (decision D27). DESIGN CHOICE as the map of State.reset (log entry 1):
unsafe for a statement that rests on it. -/
def refmap : PinMap :=
  { r1 := 0, g1 := 1, b1 := 2, r2 := 3, g2 := 4, b2 := 5, a := 6, b := 7, c := 8, d := 9, e := 10,
    clk := 11, lat := 12, oe := 13 }

/-- The configuration of `n` planes with the table of GAMMA = 2, REFMAP and interval 4. The three port
addresses and T_SETTLE_MIN are OPEN in the spec; the values here are a DESIGN CHOICE (log entry 1), and no
meaning reads them. -/
def gamma2Config (n : Nat) : Config :=
  { n := n, lut := gamma2Lut n, pins := refmap, portSetAddr := 0, portClrAddr := 4, portDirAddr := 8,
    settleMin := 1, drawInterval := 4 }

/-- The reference configuration (rules R6, R7, R11). -/
def referenceConfig : Config :=
  gamma2Config 5

/-- A configuration the spec gives a meaning to: 1 ≤ N ≤ 8 (rule R6), a legal table (rule R101), a legal
pin map (rule R9), a positive settle time (rule R10) and a positive refresh interval (rule R11). -/
def configLegal (cfg : Config) : Bool :=
  decide (1 ≤ cfg.n) && decide (cfg.n ≤ 8) && lutLegal cfg && pinsLegal cfg.pins
    && decide (0 < cfg.settleMin) && decide (1 ≤ cfg.drawInterval)

end Sys2Proof.Machine
end

