-- ==== Sys2Proof/Machine/State.lean ====
section
/-! DEFINITION. The machine's state as plain data: every piece of state spec/10_state.md gives the block, the
build-time configuration it carries, and what the host and the world do next. The state right after reset
(rules R38, R210). -/

namespace Sys2Proof.Machine

/-- What the world outside the block does next. The host issues one command at a time (rule R12); the reset
input is sampled between commands (rule R211); the platform owns the port bits that carry no signal
(rule R30). -/
inductive Input where
  /-- The host issues a command word (rule R80). -/
  | command (w : Cmd)
  /-- The host starts the pseudo-operation DRAW on a bitmap (rule R160). -/
  | draw (bitmap : List Nat)
  /-- The reset input is asserted (rule R211). -/
  | reset
  /-- The platform gives the port bits of no signal the values they have in `out` and `dirv`
  (spec/93_implementation_defined.md U9). -/
  | platform (out dirv : Word)
  deriving DecidableEq, Repr

/-- The state of the block. -/
structure State where
  /-- The build-time configuration (rules R6 to R11, R34). No step changes it. -/
  cfg : Config
  /-- BP, the bit-plane array (rule R20), by word offset (rule R55). -/
  bp : Memory
  /-- DISP, the display select (rule R22). -/
  disp : BitVec 1
  /-- FAULT (rule R29). -/
  fault : BitVec 1
  /-- FCAUSE (rules R29, R32). -/
  fcause : BitVec 2
  /-- FINFO (rule R33). -/
  finfo : BitVec 64
  /-- RESULT (rule R31). -/
  result : BitVec 32
  /-- OUT, the output latch (rule R30). -/
  out : Word
  /-- DIRV, the direction latch (rule R30). -/
  dirv : Word
  /-- TRACE, the port events since reset, oldest first (rules R35, R130). -/
  trace : List Event
  /-- What the host and the world do next, first the next one (rules R12, R13). The model's own field. -/
  inputs : List Input
  deriving DecidableEq, Repr

/-- A stop of the machine. The spec has none: a fault of the spec is a record in FAULT, FCAUSE and FINFO, the
block "then waits for the next command as after any command" (rule R184), so it is a next state. The type
has no constructor, which says that no step of this machine stops with a fault. -/
inductive Fault where
  deriving DecidableEq, Repr

/-- Why the model gives no meaning to a step. -/
inductive Refusal where
  /-- An instruction without a meaning. No arm of exec raises it: every command is modelled. Safe. -/
  | notModelled (mnemonic : String)
  /-- Raised by step when the configuration is outside rules R6, R7, R9, R10 or R11: "a configuration that
  breaks this is refused by the model" (rule R9). Safe. -/
  | illegalConfig
  /-- Raised by step when the host starts a DRAW on a bitmap that is not 6144 values in [0,255]: "a model
  refuses an invalid one before issuing any command" (rule R161). Safe. -/
  | invalidBitmap
  deriving DecidableEq, Repr

/-- The state right after the reset transition, for a block built with configuration `cfg` (rules R38, R210).
The eighteen bits of OUT and DIRV that carry no signal are 0 here: DESIGN CHOICE (log entry 5), unsafe for a
statement that rests on it. -/
def State.resetWith (cfg : Config) : State :=
  { cfg := cfg
    bp := []
    disp := 0#1
    fault := 0#1
    fcause := 0#2
    finfo := 0#64
    result := 0#32
    out := 0#32
    dirv := maskOf cfg.pins allSignals
    trace := [.dir (maskOf cfg.pins allSignals), .clr (maskOf cfg.pins allSignals)]
    inputs := [] }

/-- The machine right after reset, built with the reference configuration (log entry 1). -/
def State.reset : State :=
  State.resetWith referenceConfig

end Sys2Proof.Machine
end

