-- ==== Sys2Proof/Machine/Flags.lean ====
section
/-! DEFINITION. The fault causes and their codes (rule R181), and STATUS, the word the host reads the flags
through (rule R32). -/

namespace Sys2Proof.Machine

/-- A fault cause (rule R181). -/
inductive Cause where
  | illegalCommand
  | coordRange
  | indexRange
  deriving DecidableEq, Repr

/-- The code recorded in FCAUSE (rules R32, R181). -/
def causeCode : Cause → BitVec 2
  | .illegalCommand => 1#2
  | .coordRange => 2#2
  | .indexRange => 3#2

/-- STATUS (rule R32): FAULT in bit 0, FCAUSE in bits 2:1, DISP in bit 3, the configuration constant N
(NBITS) in bits 7:4, bits 31:8 zero. -/
def statusWord (s : State) : BitVec 32 :=
  s.fault.setWidth 32 ||| (s.fcause.setWidth 32 <<< 1) ||| (s.disp.setWidth 32 <<< 3)
    ||| ((BitVec.ofNat 4 s.cfg.n).setWidth 32 <<< 4)

end Sys2Proof.Machine
end

