-- ==== Sys2Proof/Machine/Operands.lean ====
section
/-! DEFINITION. How the operations address the bit-plane array: bank roles (rules R22, R110), the position of a
pixel (rule R111), the word offset of a tuple (rule R55). -/

namespace Sys2Proof.Machine

/-- The number of a colour (rule R20, decision D5). -/
def colourIdx : Colour → Nat
  | .red => 0
  | .green => 1
  | .blue => 2

/-- The three colours in the order of rule R20. -/
def allColours : List Colour :=
  [.red, .green, .blue]

/-- `off(k, z, row, c, h)` for an array of `n` planes (rule R55). -/
def wordOffset (n k z row c h : Nat) : Nat :=
  k * (n * 192) + ((z * 32 + row) * 3 + c) * 2 + h

/-- The number of words of one bank (rule R20). -/
def bankSize (n : Nat) : Nat :=
  n * 192

/-- The number of words of the array (rule R20). -/
def arraySize (n : Nat) : Nat :=
  2 * bankSize n

/-- D = DISP, the display bank (rules R22, R110). -/
def displayBank (s : State) : Nat :=
  s.disp.toNat

/-- W = 1 − DISP, the write bank (rules R22, R110). -/
def writeBank (s : State) : Nat :=
  1 - s.disp.toNat

/-- The bank a role operand names: 0 the display bank, 1 the write bank (rule R120). -/
def roleBank (s : State) (role : Field) : Nat :=
  if role = 0#8 then displayBank s else writeBank s

/-- `h(x) = x div 32` (rule R111). -/
def pixelHalf (x : Field) : Nat :=
  x.toNat / 32

/-- `j(x) = x mod 32` (rule R111). -/
def pixelBit (x : Field) : Nat :=
  x.toNat % 32

/-- The channel operand of a colour (rule R112). -/
def channelOf (r g b : Field) : Colour → Field
  | .red => r
  | .green => g
  | .blue => b

/-- `BP[k][z][row][c][h]` (rules R15, R20). -/
def bpWord (s : State) (k z row c h : Nat) : Word :=
  readWord s.bp (wordOffset s.cfg.n k z row c h)

/-- The words of one row of one plane, as SHIFT_ROW takes them: `[colour][half]` (rule R135). -/
abbrev RowWords := Colour → Nat → Word

/-- The words of bank `k`: `[plane][row][colour][half]` (rule R151). -/
def bankWords (s : State) (k : Nat) : Nat → Nat → RowWords :=
  fun z row c h => bpWord s k z row (colourIdx c) h

/-- `PIXBIT(k, z, x, y, c)` (rule R122). -/
def pixBit (s : State) (k z x y : Nat) (c : Colour) : Bool :=
  (bpWord s k z y (colourIdx c) (x / 32)).getLsbD (x % 32)

/-- `PIX(k, x, y, c)`, the N-bit value bank `k` holds for a pixel and colour (rule R122). -/
def pixValue (s : State) (k x y : Nat) (c : Colour) : Nat :=
  ((List.range s.cfg.n).map (fun z => (pixBit s k z x y c).toNat * 2 ^ z)).sum

end Sys2Proof.Machine
end

