-- ==== Sys2Proof/Machine/Ops.lean ====
section
/-! DEFINITION. The named operations over the state that the commands share: field updates, port writes and
settles (rules R131, R132), the fault transition (rule R184), the reset transition (rule R210), the
platform's bits (rule R30), the host's reads (rule R171). -/

namespace Sys2Proof.Machine

/-- `BP <- m`. -/
def setBp (s : State) (m : Memory) : State :=
  { s with bp := m }

/-- `DISP <- d`. -/
def setDisp (s : State) (d : BitVec 1) : State :=
  { s with disp := d }

/-- `RESULT <- v` (rule R15). -/
def setResult (s : State) (v : BitVec 32) : State :=
  { s with result := v }

/-- The host's remaining inputs become `is`. -/
def setInputs (s : State) (is : List Input) : State :=
  { s with inputs := is }

/-- Perform port events in order: each acts on OUT or DIRV and is appended to the trace
(rules R59, R62, R131, R132). -/
def emit (s : State) (es : List Event) : State :=
  { s with out := outAfter s.out es, dirv := dirAfter s.dirv es, trace := s.trace ++ es }

/-- `PortWrite(reg, m)` (rules R15, R131). -/
def portWrite (s : State) (reg : PortReg) (m : Word) : State :=
  emit s [writeEvent reg m]

/-- `Settle(n)`: n no-op cycles, recorded in the trace, no state changed (rules R15, R132). -/
def settle (s : State) (n : Nat) : State :=
  emit s [.settle n]

/-- `raise Fault(cause, cmd)` (rule R184): the first fault is recorded, a later one changes nothing. Control
goes nowhere, and nothing returns from a fault (rule R185). -/
def raiseFault (s : State) (cause : Cause) (cmd : Cmd) : State :=
  if s.fault = 0#1 then { s with fault := 1#1, fcause := causeCode cause, finfo := cmd } else s

/-- The part of the reset transition that clears storage (rule R210): both banks, DISP, the fault record,
RESULT, and the trace, which is started afresh. -/
def clearState (s : State) : State :=
  { s with bp := [], disp := 0#1, fault := 0#1, fcause := 0#2, finfo := 0#64, result := 0#32, trace := [] }

/-- `reset()` (rule R210): storage cleared, then all fourteen signals made outputs, then all driven low. The
one way back from a fault (rule R185). -/
def resetBlock (s : State) : State :=
  portWrite (portWrite (clearState s) .dir (maskOf s.cfg.pins allSignals)) .clr
    (maskOf s.cfg.pins allSignals)

/-- The bits of no signal take the platform's values, those of the fourteen signals stay (rule R30,
spec/93_implementation_defined.md U9). -/
def platformWrite (s : State) (out dirv : Word) : State :=
  { s with
    out := (s.out &&& maskOf s.cfg.pins allSignals) ||| (out &&& ~~~(maskOf s.cfg.pins allSignals))
    dirv := (s.dirv &&& maskOf s.cfg.pins allSignals) ||| (dirv &&& ~~~(maskOf s.cfg.pins allSignals)) }

/-- A word that is no command faults ILLEGAL_COMMAND and does nothing else (rules R88, R89). -/
def illegalCommand (s : State) (cmd : Cmd) : State :=
  raiseFault s .illegalCommand cmd

/-- The host's read of RESULT (rule R171). -/
def readResult (s : State) : BitVec 32 :=
  s.result

/-- The host's read of STATUS (rules R32, R171). -/
def readStatus (s : State) : BitVec 32 :=
  statusWord s

/-- The host's read of FINFO (rules R33, R171). -/
def readFinfo (s : State) : BitVec 64 :=
  s.finfo

end Sys2Proof.Machine
end

