-- ==== Sys2Proof/Machine/BitPlane.lean ====
section
/-! DEFINITION. The bit-plane buffer's commands SETPIX, CLEAR, SWAP and RDW (rules R110 to R121). -/

namespace Sys2Proof.Machine

/-- One read-modify-write of rule R112: the word at `addr` OR-ed with the bit `b` shifted to place `j`. -/
def orBit (m : Memory) (addr : Nat) (b : Bool) (j : Nat) : Memory :=
  writeWord m addr (readWord m addr ||| ((BitVec.ofBool b).setWidth 32 <<< j))

/-- The loop nest of rule R112: planes ascending, colours inside. -/
def planeColours (n : Nat) : List (Nat × Colour) :=
  (List.range n).flatMap (fun z => allColours.map (fun c => (z, c)))

/-- The body of SETPIX for legal coordinates (rule R112): for every plane and colour, OR bit z of the
quantized channel `q c` into bit `j` of the word of row `y`, half `h` of bank `k`. -/
def orPixel (n k y h j : Nat) (q : Colour → BitVec 8) (m : Memory) : Memory :=
  (planeColours n).foldl
    (fun m p => orBit m (wordOffset n k p.1 y (colourIdx p.2) h) ((q p.2).getLsbD p.1) j) m

/-- SETPIX x, y, r, g, b (rules R112, R113, R114): OR the quantized pixel into the write bank. A coordinate
out of range raises COORD_RANGE and writes nothing. -/
def execSetpix (x y r g b : Field) (s : State) : Host.Outcome State Fault Refusal :=
  if coordLegal x y then
    .next (setBp s
      (orPixel s.cfg.n (writeBank s) y.toNat (pixelHalf x) (pixelBit x)
        (fun c => lutAt s.cfg (channelOf r g b c)) s.bp))
  else
    .next (raiseFault s .coordRange (encode (.setpix x y r g b)))

/-- CLEAR: zero the N × 192 words of the write bank (rule R116). -/
def execClear (s : State) : Host.Outcome State Fault Refusal :=
  .next (setBp s (zeroRange s.bp (writeBank s * bankSize s.cfg.n) (bankSize s.cfg.n)))

/-- SWAP: `DISP <- 1 − DISP` (rule R118). -/
def execSwap (s : State) : Host.Outcome State Fault Refusal :=
  .next (setDisp s (1#1 - s.disp))

/-- RDW role, plane, row, colour, half: one word of a bank into RESULT (rule R120). An operand out of range
raises INDEX_RANGE and leaves RESULT as it is. -/
def execRdw (role plane row colour half : Field) (s : State) : Host.Outcome State Fault Refusal :=
  if indexLegal s.cfg.n role plane row colour half then
    .next (setResult s
      (bpWord s (roleBank s role) plane.toNat row.toNat colour.toNat half.toNat))
  else
    .next (raiseFault s .indexRange (encode (.rdw role plane row colour half)))

end Sys2Proof.Machine
end

