-- ==== Sys2Proof/Machine/Quantizer.lean ====
section
/-! DEFINITION. QUANT, the read of the quantizer table (rule R103). -/

namespace Sys2Proof.Machine

/-- QUANT v: `RESULT <- zext_32(LUT[v])` (rule R103). -/
def execQuant (v : Field) (s : State) : Host.Outcome State Fault Refusal :=
  .next (setResult s ((lutAt s.cfg v).setWidth 32))

end Sys2Proof.Machine
end

