-- ==== Sys2Proof/Machine/RowShifter.lean ====
section
/-! DEFINITION. The row shifter: the events of one strobe (rules R133, R134, R137, R140, R141) and the
micro-operation SHIFT_ROW (rule R135). -/

namespace Sys2Proof.Machine

/-- Bit of column `i` in a row's words: half i div 32, bit i mod 32 (rules R28, R140). -/
def columnBit (row : RowWords) (c : Colour) (i : Nat) : Bool :=
  (row c (i / 32)).getLsbD (i % 32)

/-- `data(top, bot, i)` (rule R140). -/
def dataSignals (top bot : RowWords) (i : Nat) : List Signal :=
  (allColours.filter (fun c => columnBit top c i)).map upperLine
    ++ (allColours.filter (fun c => columnBit bot c i)).map lowerLine

/-- Whether an address line carries a 1 of the row address (rule R137). -/
def carriesOne (a : Nat) (s : Signal) : Bool :=
  match addrBit s with
  | some k => a.testBit k
  | none => false

/-- `addr(a)`: the address lines that carry a 1 (rule R137). -/
def addrSignals (a : Nat) : List Signal :=
  addrLines.filter (carriesOne a)

/-- The column step for column `i` (rule R133). -/
def columnStep (pm : PinMap) (top bot : RowWords) (i : Nat) : List Event :=
  [.clr (maskOf pm dataLines),
   .set (maskOf pm (dataSignals top bot i ++ [.clk])),
   .settle 1,
   .clr (maskOf pm [.clk])]

/-- The latch step for row address `a` (rule R134). -/
def latchStep (pm : PinMap) (a : Nat) : List Event :=
  [.clr (maskOf pm addrLines),
   .set (maskOf pm ([.lat, .oe] ++ addrSignals a)),
   .settle 2,
   .clr (maskOf pm [.lat, .oe])]

/-- `STROBE(a, top, bot)`: 64 column steps, then the latch step (rule R141). -/
def strobe (pm : PinMap) (a : Nat) (top bot : RowWords) : List Event :=
  (List.range 64).flatMap (columnStep pm top bot) ++ latchStep pm a

/-- The port writes and the settle of column step `i`, one after another (rule R133). -/
def columnWrites (top bot : RowWords) (s : State) (i : Nat) : State :=
  portWrite
    (settle
      (portWrite (portWrite s .clr (maskOf s.cfg.pins dataLines)) .set
        (maskOf s.cfg.pins (dataSignals top bot i ++ [.clk]))) 1)
    .clr (maskOf s.cfg.pins [.clk])

/-- The port writes and the settle of the latch step, one after another (rule R134). -/
def latchWrites (s : State) (a : Nat) : State :=
  portWrite
    (settle
      (portWrite (portWrite s .clr (maskOf s.cfg.pins addrLines)) .set
        (maskOf s.cfg.pins ([.lat, .oe] ++ addrSignals a))) 2)
    .clr (maskOf s.cfg.pins [.lat, .oe])

/-- SHIFT_ROW a, top, bot: one physical strobe cycle (rule R135), by the pure function of rule R141. -/
def shiftRow (s : State) (a : Nat) (top bot : RowWords) : State :=
  emit s (strobe s.cfg.pins a top bot)

end Sys2Proof.Machine
end

