-- ==== Sys2Proof/Machine/Refresh.lean ====
section
/-! DEFINITION. The refresh scheduler: the loop nest of REFRESH (rule R150) and the sweep as a pure function of
a bank (rule R151). -/

namespace Sys2Proof.Machine

/-- One position (z, k, a) of the refresh-schedule iterator (rule R27). -/
structure Slot where
  /-- The plane. -/
  z : Nat
  /-- The repeat index. -/
  k : Nat
  /-- The row address. -/
  a : Nat
  deriving DecidableEq, Repr

/-- The loop nest of rule R150: plane z ascending, repeat k in [0, 2^z), address a in [0, 16). -/
def schedule (n : Nat) : List Slot :=
  (List.range n).flatMap (fun z =>
    (List.range (2 ^ z)).flatMap (fun k =>
      (List.range 16).map (fun a => { z := z, k := k, a := a })))

/-- The strobe of one schedule position: rows a and a + 16 of plane z of a bank (rules R150, R151). -/
def slotStrobe (pm : PinMap) (bank : Nat → Nat → RowWords) (p : Slot) : List Event :=
  strobe pm p.a (bank p.z p.a) (bank p.z (p.a + 16))

/-- `SWEEP(B)` (rule R151). -/
def sweep (pm : PinMap) (n : Nat) (bank : Nat → Nat → RowWords) : List Event :=
  (schedule n).flatMap (slotStrobe pm bank)

/-- One turn of REFRESH's loop: SHIFT_ROW of rows a and a + 16 (rule R150). -/
def refreshTurn (bank : Nat → Nat → RowWords) (s : State) (p : Slot) : State :=
  shiftRow s p.a (bank p.z p.a) (bank p.z (p.a + 16))

/-- REFRESH: one full sweep of the display bank (rule R150). -/
def execRefresh (s : State) : Host.Outcome State Fault Refusal :=
  .next ((schedule s.cfg.n).foldl (refreshTurn (bankWords s (displayBank s))) s)

end Sys2Proof.Machine
end

