-- ==== Sys2Proof/Machine/System.lean ====
section
/-! DEFINITION. INIT, the one system operation (rule R170). -/

namespace Sys2Proof.Machine

/-- INIT: the reset transition, "exactly as the reset input does" (rule R170). -/
def execInit (s : State) : Host.Outcome State Fault Refusal :=
  .next (resetBlock s)

end Sys2Proof.Machine
end

