-- ==== Sys2Proof/Machine/Dispatch.lean ====
section
/-! DEFINITION. The meaning of each command, one arm per constructor (rule R86). -/

namespace Sys2Proof.Machine

def exec (i : Instr) (s : State) : Host.Outcome State Fault Refusal :=
  match i with
  | .init => Sys2Proof.Machine.execInit s
  | .quant v => Sys2Proof.Machine.execQuant v s
  | .setpix x y r g b => Sys2Proof.Machine.execSetpix x y r g b s
  | .clear => Sys2Proof.Machine.execClear s
  | .swap => Sys2Proof.Machine.execSwap s
  | .refresh => Sys2Proof.Machine.execRefresh s
  | .rdw role plane row colour half => Sys2Proof.Machine.execRdw role plane row colour half s

end Sys2Proof.Machine
end

