-- ==== Sys2Proof/Machine/Draw.lean ====
section
/-! DEFINITION. The host-side pseudo-operation DRAW (rules R160, R161): which bitmaps it takes (rule R54), the
commands it expands into, and the host's start of it. -/

namespace Sys2Proof.Machine

/-- "exactly 64×32×3 = 6144 integers in [0,255]" (rules R54, R161). -/
def bitmapLegal (bitmap : List Nat) : Bool :=
  decide (bitmap.length = 6144) && bitmap.all (fun v => decide (v ≤ 255))

/-- `idx(x, y, c) = (y × 64 + x) × 3 + c` (rule R54). -/
def bitmapIdx (x y c : Nat) : Nat :=
  (y * 64 + x) * 3 + c

/-- The channel value of a pixel and colour. -/
def bitmapAt (bitmap : List Nat) (x y c : Nat) : Nat :=
  bitmap.getD (bitmapIdx x y c) 0

/-- The SETPIX of one pixel (rule R160). -/
def drawPixel (bitmap : List Nat) (x y : Nat) : Instr :=
  .setpix (BitVec.ofNat 8 x) (BitVec.ofNat 8 y) (BitVec.ofNat 8 (bitmapAt bitmap x y 0))
    (BitVec.ofNat 8 (bitmapAt bitmap x y 1)) (BitVec.ofNat 8 (bitmapAt bitmap x y 2))

/-- One turn of DRAW's inner loop: the pixel, and a REFRESH if `(x + 1) mod R = 0` (rule R160). -/
def drawColumn (interval : Nat) (bitmap : List Nat) (y x : Nat) : List Instr :=
  if (x + 1) % interval = 0 then [drawPixel bitmap x y, .refresh] else [drawPixel bitmap x y]

/-- The loop nest of DRAW: rows outer, columns inner, both ascending (rule R160). -/
def drawBody (interval : Nat) (bitmap : List Nat) : List Instr :=
  (List.range 32).flatMap (fun y => (List.range 64).flatMap (drawColumn interval bitmap y))

/-- The commands DRAW expands into (rule R160): CLEAR, the pixels with interleaved REFRESH, SWAP. -/
def drawProgram (interval : Nat) (bitmap : List Nat) : List Instr :=
  [.clear] ++ drawBody interval bitmap ++ [.swap]

/-- The host starts a DRAW: a legal bitmap becomes the commands of its expansion, issued one at a time before
anything else the host does, and an illegal one is refused before any command (rules R160, R161). -/
def startDraw (bitmap : List Nat) (s : State) : Host.Outcome State Fault Refusal :=
  if bitmapLegal bitmap then
    .next (setInputs s
      ((drawProgram s.cfg.drawInterval bitmap).map (fun i => Input.command (encode i)) ++ s.inputs))
  else
    .refused .invalidBitmap

end Sys2Proof.Machine
end

