-- ==== Sys2Proof/Machine/Step.lean ====
section
/-! DEFINITION. One step of the machine: the next thing the host or the world does, done to completion
(rules R12, R211). -/

namespace Sys2Proof.Machine

/-- Decode a command word and execute it (rule R88). A word that is no command records ILLEGAL_COMMAND. -/
def runCommand (w : Cmd) (s : State) : Host.Outcome State Fault Refusal :=
  match decode w with
  | .ok i => exec i s
  | .error _ => .next (illegalCommand s w)

/-- One input, taken from the state it leaves behind. -/
def deliver (input : Input) (s : State) : Host.Outcome State Fault Refusal :=
  match input with
  | .command w => runCommand w s
  | .draw bitmap => startDraw bitmap s
  | .reset => .next (resetBlock s)
  | .platform out dirv => .next (platformWrite s out dirv)

/-- One step. An illegal configuration is refused (rule R9). With no input left the block is idle and holds its
state (rules R196, R213). -/
def step (s : State) : Host.Outcome State Fault Refusal :=
  if configLegal s.cfg then
    match s.inputs with
    | [] => .next s
    | input :: rest => deliver input (setInputs s rest)
  else
    .refused .illegalConfig

/-- The state in which the host issues the table word `w` next (rule R80). The later inputs stay. -/
def State.withFetchWord (s : State) (nbits w : Nat) : State :=
  setInputs s (.command (cmdOfTable nbits w) :: s.inputs)

end Sys2Proof.Machine
end

