-- ==== Sys2Proof/Machine/Panel.lean ====
section
/-! DEFINITION. The reader's-aid observer of rule R144: what the panel makes of the port events. It is outside
the block (rules R4, R36), no meaning reads it, and its state before the first strobe is the caller's
(spec/93_implementation_defined.md U11). The rule is non-normative (decision D23). -/

namespace Sys2Proof.Machine

/-- The panel (rule R144). A stage of the shift registers holds the levels of the six data lines, R1 in bit 0
up to B2 in bit 5. -/
structure Panel where
  /-- SR[6][64]: the stages, oldest first. -/
  sr : List (BitVec 6)
  /-- LATCHED[6][64], in the order of `sr`. -/
  latched : List (BitVec 6)
  /-- ADDRSEL. -/
  addrSel : BitVec 5
  /-- BLANK. -/
  blank : Bool
  deriving DecidableEq, Repr

/-- The levels of a list of lines as a number, the first line in bit 0. -/
def levelsOf (pm : PinMap) (out : Word) (lines : List Signal) : Nat :=
  lines.foldr (fun s acc => (levelOf pm out s).toNat + 2 * acc) 0

/-- "on a SET that raises CLK from 0 to 1 ... shift SR[d] by one place and insert the level of d after this
write" (rule R144). -/
def panelShift (pm : PinMap) (before after : Word) (p : Panel) : Panel :=
  if levelOf pm before .clk = false ∧ levelOf pm after .clk = true then
    { p with sr := p.sr.drop 1 ++ [BitVec.ofNat 6 (levelsOf pm after dataLines)] }
  else p

/-- "on any write after which LAT = 1: LATCHED <- SR" (rule R144). -/
def panelLatch (pm : PinMap) (after : Word) (p : Panel) : Panel :=
  if levelOf pm after .lat then { p with latched := p.sr } else p

/-- "after every write: ADDRSEL <- levels of (E,D,C,B,A);  BLANK <- level of OE" (rule R144). -/
def panelSelect (pm : PinMap) (after : Word) (p : Panel) : Panel :=
  { p with addrSel := BitVec.ofNat 5 (levelsOf pm after addrLines), blank := levelOf pm after .oe }

/-- The panel after one port event, with the pin levels before it. A settle is no write. -/
def panelEvent (pm : PinMap) (before : Word) (p : Panel) (ev : Event) : Panel :=
  if ev.isWrite then
    panelSelect pm (driveOut before ev)
      (panelLatch pm (driveOut before ev) (panelShift pm before (driveOut before ev) p))
  else p

/-- The panel after a list of events that begins at pin levels `out`. -/
def panelAfter (pm : PinMap) : Word → Panel → List Event → Panel
  | _, p, [] => p
  | out, p, ev :: rest => panelAfter pm (driveOut out ev) (panelEvent pm out p ev) rest

/-- "lit: when BLANK = 0, rows ADDRSEL and ADDRSEL+16 show LATCHED (lines 1 on the upper row, lines 2 on the
lower)" (rule R144): for each column the levels of red, green, blue in bits 0, 1, 2. -/
def panelShows (p : Panel) (row : Nat) : List (BitVec 3) :=
  if p.blank then p.latched.map (fun _ => 0#3)
  else if row = p.addrSel.toNat then p.latched.map (fun v => v.extractLsb' 0 3)
  else if row = p.addrSel.toNat + 16 then p.latched.map (fun v => v.extractLsb' 3 3)
  else p.latched.map (fun _ => 0#3)

end Sys2Proof.Machine
end

