-- ==== Sys2Proof/Safety.lean ====
section
/-! DEFINITION. The terms claims are stated in: the invariant of the block between commands, runs without a
fault (rule R186), sequences of commands. -/

namespace Sys2Proof.Machine

/-- No command has faulted since reset (rule R186). -/
def Clean (s : State) : Prop :=
  s.fault = 0#1

/-- The array is in canonical form and within its size (rules R20, R55). -/
def ArrayOk (s : State) : Prop :=
  memoryWf s.bp = true ∧ memoryWithin (arraySize s.cfg.n) s.bp = true

/-- FCAUSE and FINFO are 0 while FAULT = 0, and FCAUSE names a cause once FAULT = 1 (rules R32, R33, R184). -/
def RecordOk (s : State) : Prop :=
  (s.fault = 0#1 → s.fcause = 0#2 ∧ s.finfo = 0#64) ∧ (s.fault = 1#1 → s.fcause ≠ 0#2)

/-- CLK, LAT, OE and E are low and every signal is an output (rules R137, R138, R210). -/
def PinsIdle (s : State) : Prop :=
  (∀ sig ∈ [Signal.clk, Signal.lat, Signal.oe, Signal.e], levelOf s.cfg.pins s.out sig = false)
    ∧ (∀ sig : Signal, levelOf s.cfg.pins s.dirv sig = true)

/-- What holds between commands, from reset on. -/
def BlockInv (s : State) : Prop :=
  configLegal s.cfg = true ∧ ArrayOk s ∧ RecordOk s ∧ PinsIdle s

/-- Execute commands in order, each to completion (rule R12). -/
def execAll : List Instr → State → Host.Outcome State Fault Refusal
  | [], s => .next s
  | i :: rest, s =>
    match exec i s with
    | .next t => execAll rest t
    | .fault r => .fault r
    | .refused r => .refused r

/-- The SETPIX commands of a program (rule R162 counts them). -/
def isSetpix : Instr → Bool
  | .setpix _ _ _ _ _ => true
  | .init => false
  | .quant _ => false
  | .clear => false
  | .swap => false
  | .refresh => false
  | .rdw _ _ _ _ _ => false

/-- The commands that can change what REFRESH shows: "no command other than SWAP (and reset)" (rule R154). -/
def changesDisplay : Instr → Bool
  | .init => true
  | .swap => true
  | .quant _ => false
  | .setpix _ _ _ _ _ => false
  | .clear => false
  | .refresh => false
  | .rdw _ _ _ _ _ => false

/-- Two states agree on everything but the fault record. -/
def SameButRecord (s t : State) : Prop :=
  t = { s with fault := t.fault, fcause := t.fcause, finfo := t.finfo }

/-- The level of a signal after each event of a list that begins at pin levels `out`. -/
def levelTrace (pm : PinMap) (sig : Signal) : Word → List Event → List Bool
  | _, [] => []
  | out, ev :: rest => levelOf pm (driveOut out ev) sig :: levelTrace pm sig (driveOut out ev) rest

/-- How often a signal goes from low to high over a list of events (rule R139). -/
def risingEdges (pm : PinMap) (sig : Signal) : Word → List Event → Nat
  | _, [] => 0
  | out, ev :: rest =>
    (!levelOf pm out sig && levelOf pm (driveOut out ev) sig).toNat
      + risingEdges pm sig (driveOut out ev) rest

/-- How often a signal goes from high to low over a list of events (rule R139). -/
def fallingEdges (pm : PinMap) (sig : Signal) : Word → List Event → Nat
  | _, [] => 0
  | out, ev :: rest =>
    (levelOf pm out sig && !levelOf pm (driveOut out ev) sig).toNat
      + fallingEdges pm sig (driveOut out ev) rest

/-- Whether an event is a write of the set register. -/
def isSet : Event → Bool
  | .set _ => true
  | .clr _ => false
  | .dir _ => false
  | .settle _ => false

/-- Whether an event is a write of the clear register. -/
def isClr : Event → Bool
  | .set _ => false
  | .clr _ => true
  | .dir _ => false
  | .settle _ => false

/-- Whether the event at a position of a list is a SET whose mask holds a signal. -/
def setsLine (pm : PinMap) (es : List Event) (pos : Nat) (sig : Signal) : Bool :=
  match es[pos]? with
  | some (.set m) => levelOf pm m sig
  | some (.clr _) => false
  | some (.dir _) => false
  | some (.settle _) => false
  | none => false

/-- The data line of a colour for row `y` of the panel: the upper row's below 16, the lower row's above
(rules R136, R153). -/
def rowLine (y : Nat) (c : Colour) : Signal :=
  if y < 16 then upperLine c else lowerLine c

/-- The number of strobes of the sweep that begins at event `start` of a trace in which a line is set in
column step `x`, of the strobes of row address `a`; strobe s occupies 260 events (rules R139, R153, R157). -/
def litStrobes (pm : PinMap) (n : Nat) (trace : List Event) (start a x : Nat) (sig : Signal) : Nat :=
  ((List.range (16 * (2 ^ n - 1))).filter (fun s =>
    decide (s % 16 = a) && setsLine pm trace (start + 260 * s + 4 * x + 1) sig)).length

/-- The levels of the six data lines in column `i`, R1 in bit 0 up to B2 in bit 5 (rule R140). -/
def columnLevels (top bot : RowWords) (i : Nat) : Nat :=
  (columnBit top .red i).toNat + 2 * (columnBit top .green i).toNat + 4 * (columnBit top .blue i).toNat
    + 8 * (columnBit bot .red i).toNat + 16 * (columnBit bot .green i).toNat
    + 32 * (columnBit bot .blue i).toNat

/-- Every word tuple of an array of `n` planes, but for the bank, is in range (rule R20). -/
def InRange (n z row c h : Nat) : Prop :=
  z < n ∧ row < 32 ∧ c < 3 ∧ h < 2

/-- The sweep a REFRESH of this state appends (rule R151). -/
def displaySweep (s : State) : List Event :=
  sweep s.cfg.pins s.cfg.n (bankWords s (displayBank s))

end Sys2Proof.Machine
end

