-- ==== Sys2Proof/Certificates/Slice0/Obligations.lean ====
section
/-! DEFINITION. The statements about the block, from the numbered rules of spec/. Each docstring says which rule
or section it rests on. -/

open Sys2Proof Sys2Proof.Machine

/-! ### Encoding -/

/-- Rules R81 to R88: decoding the word of any command gives that command back, with every operand at every
value its field admits. -/
def Obligations.DecodeInvertsEncode : Prop :=
  ∀ i : Instr, decode (encode i) = .ok i

/-- Rules R81 to R88: a word that decodes is the word of what it decodes to: no bit of it is dropped. -/
def Obligations.EncodeInvertsDecode : Prop :=
  ∀ (w : Cmd) (i : Instr), decode w = .ok i → encode i = w

/-- Rule R86: a word is a row's command exactly when it meets the row's mask and match. The row is that of the
command `j`. -/
def Obligations.DecodeFollowsOpcodeTable : Prop :=
  ∀ (j : Instr) (w : Cmd),
    (∃ i, decode w = .ok i ∧ tableMatch i = tableMatch j) ↔ w &&& tableMask j = tableMatch j

/-- Rule R88, tests 1 and 2, and rule R89: a word is illegal exactly when its opcode is not in 0x01..0x07 or
its format's zero field is not 0. -/
def Obligations.IllegalWordsExactly : Prop :=
  ∀ w : Cmd, (∃ r, decode w = .error r) ↔
    (w.toNat / 2 ^ 56 < 1 ∨ 7 < w.toNat / 2 ^ 56)
      ∨ (w.toNat / 2 ^ 56 ∈ [1, 4, 5, 6] ∧ w.toNat % 2 ^ 56 ≠ 0)
      ∨ (w.toNat / 2 ^ 56 = 2 ∧ w.toNat / 2 ^ 8 % 2 ^ 48 ≠ 0)
      ∨ (w.toNat / 2 ^ 56 = 3 ∧ w.toNat / 2 ^ 24 % 2 ^ 16 ≠ 0)
      ∨ (w.toNat / 2 ^ 56 = 7 ∧ w.toNat % 2 ^ 16 ≠ 0)

/-- Rule R85: every operand field is the unsigned integer of its bits. -/
def Obligations.OperandsAreTheirBits : Prop :=
  (∀ (w : Cmd) (v : Field), decode w = .ok (.quant v) → v.toNat = w.toNat % 256)
    ∧ (∀ (w : Cmd) (x y r g b : Field), decode w = .ok (.setpix x y r g b) →
        x.toNat = w.toNat / 2 ^ 48 % 256 ∧ y.toNat = w.toNat / 2 ^ 40 % 256
          ∧ r.toNat = w.toNat / 2 ^ 16 % 256 ∧ g.toNat = w.toNat / 2 ^ 8 % 256
          ∧ b.toNat = w.toNat % 256)
    ∧ (∀ (w : Cmd) (role plane row colour half : Field),
        decode w = .ok (.rdw role plane row colour half) →
          role.toNat = w.toNat / 2 ^ 48 % 256 ∧ plane.toNat = w.toNat / 2 ^ 40 % 256
            ∧ row.toNat = w.toNat / 2 ^ 32 % 256 ∧ colour.toNat = w.toNat / 2 ^ 24 % 256
            ∧ half.toNat = w.toNat / 2 ^ 16 % 256)

/-- The words of rule R92 decode to the commands beside them, and its illegal words to none. -/
def Obligations.WorkedEncodings : Prop :=
  decode 0x0100000000000000#64 = .ok .init
    ∧ decode 0x02000000000000FF#64 = .ok (.quant 255#8)
    ∧ decode 0x0200000000000000#64 = .ok (.quant 0#8)
    ∧ decode 0x0300000000FFFFFF#64 = .ok (.setpix 0#8 0#8 255#8 255#8 255#8)
    ∧ decode 0x03200500000A141E#64 = .ok (.setpix 32#8 5#8 10#8 20#8 30#8)
    ∧ decode 0x033F1F0000010203#64 = .ok (.setpix 63#8 31#8 1#8 2#8 3#8)
    ∧ decode 0x0340000000000000#64 = .ok (.setpix 64#8 0#8 0#8 0#8 0#8)
    ∧ decode 0x0400000000000000#64 = .ok .clear
    ∧ decode 0x0500000000000000#64 = .ok .swap
    ∧ decode 0x0600000000000000#64 = .ok .refresh
    ∧ decode 0x0700040000000000#64 = .ok (.rdw 0#8 4#8 0#8 0#8 0#8)
    ∧ decode 0x0701021102010000#64 = .ok (.rdw 1#8 2#8 17#8 2#8 1#8)
    ∧ decode 0x0000000000000000#64 = .error (.reservedOpcode 0#8)
    ∧ decode 0x0400000000000001#64 = .error (.nonzeroZeroField 4#8)
    ∧ decode 0x0300000001FFFFFF#64 = .error (.nonzeroZeroField 3#8)

/-! ### The step -/

/-- Rules R12, R88: when the word the host issues next decodes to a command, a step executes that command on the
state with the word taken from the host's inputs. -/
def Obligations.StepRunsDecodedCommand : Prop :=
  ∀ (s : State) (w : Cmd) (rest : List Input) (i : Instr), configLegal s.cfg = true →
    s.inputs = .command w :: rest → decode w = .ok i → step s = exec i (setInputs s rest)

/-- Rules R88, R89, R184: a word that is no command records ILLEGAL_COMMAND and itself if no fault is recorded,
and does nothing else. -/
def Obligations.IllegalWordRecordsFault : Prop :=
  ∀ (s : State) (w : Cmd) (rest : List Input) (r : Illegal), configLegal s.cfg = true →
    s.inputs = .command w :: rest → decode w = .error r →
      (s.fault = 0#1 → step s = .next { s with inputs := rest, fault := 1#1, fcause := 1#2, finfo := w })
        ∧ (s.fault = 1#1 → step s = .next { s with inputs := rest })

/-- Rules R196, R213: with nothing issued the block holds its state. -/
def Obligations.IdleBlockHoldsState : Prop :=
  ∀ s : State, configLegal s.cfg = true → s.inputs = [] → step s = .next s

/-- Rule R9: a configuration outside the parameters' ranges is refused. -/
def Obligations.IllegalConfigRefused : Prop :=
  ∀ s : State,
    (s.cfg.n < 1 ∨ 8 < s.cfg.n ∨ (∃ sig, 32 ≤ pinOf s.cfg.pins sig)
        ∨ ∃ sig sig' : Signal, sig ≠ sig' ∧ pinOf s.cfg.pins sig = pinOf s.cfg.pins sig') →
      step s = .refused .illegalConfig

/-- Rules R12, R37: every step of a block with a legal configuration answers a next state, unless the host
starts a DRAW on an invalid bitmap, and the configuration never changes. -/
def Obligations.StepAnswersNextState : Prop :=
  ∀ s : State, configLegal s.cfg = true →
    (∀ bitmap rest, s.inputs = .draw bitmap :: rest → bitmapLegal bitmap = true) →
      ∃ t, step s = .next t ∧ t.cfg = s.cfg

/-- Rule R211: the reset input and the INIT command are equivalent. -/
def Obligations.ResetInputIsInit : Prop :=
  ∀ (s : State) (rest : List Input), configLegal s.cfg = true →
    step (setInputs s (.reset :: rest)) = exec .init (setInputs s rest)
      ∧ step (setInputs s (.command 0x0100000000000000#64 :: rest)) = exec .init (setInputs s rest)

/-- The model's platform input (log entry 5; rule R30): the bits of no signal take the values given, every
signal keeps its level and its direction, and nothing else changes. -/
def Obligations.PlatformLeavesSignals : Prop :=
  ∀ (s : State) (o d : Word) (rest : List Input), configLegal s.cfg = true →
    s.inputs = .platform o d :: rest →
      ∃ t, step s = .next t ∧ t = { s with inputs := rest, out := t.out, dirv := t.dirv }
        ∧ (∀ sig, levelOf s.cfg.pins t.out sig = levelOf s.cfg.pins s.out sig
            ∧ levelOf s.cfg.pins t.dirv sig = levelOf s.cfg.pins s.dirv sig)
        ∧ ∀ k < 32, (∀ sig, pinOf s.cfg.pins sig ≠ k) →
            t.out.getLsbD k = o.getLsbD k ∧ t.dirv.getLsbD k = d.getLsbD k

/-! ### Reset and the invariant -/

/-- Rule R38: the value of every piece of state after reset, for every configuration with a legal pin map and
N below 16 (STATUS.NBITS has four bits). -/
def Obligations.ResetLeavesSpecValues : Prop :=
  ∀ cfg : Config, cfg.n < 16 → pinsLegal cfg.pins = true →
    (∀ k z row c h, bpWord (State.resetWith cfg) k z row c h = 0#32)
      ∧ (State.resetWith cfg).disp = 0#1
      ∧ (State.resetWith cfg).fault = 0#1 ∧ (State.resetWith cfg).fcause = 0#2
      ∧ (∀ sig, levelOf cfg.pins (State.resetWith cfg).out sig = false)
      ∧ (∀ sig, levelOf cfg.pins (State.resetWith cfg).dirv sig = true)
      ∧ readResult (State.resetWith cfg) = 0#32
      ∧ readStatus (State.resetWith cfg) = BitVec.ofNat 32 (16 * cfg.n)
      ∧ readFinfo (State.resetWith cfg) = 0#64
      ∧ (State.resetWith cfg).cfg = cfg

/-- The invariant of the block holds after reset, for every legal configuration (rules R32, R33, R138, R210). -/
def Obligations.ResetMeetsInvariant : Prop :=
  (∀ cfg : Config, configLegal cfg = true → BlockInv (State.resetWith cfg)) ∧ BlockInv State.reset

/-- Every step keeps the invariant: a legal configuration, the array canonical and within its size, the fault
record consistent, CLK, LAT, OE and E low, every signal an output (rules R20, R32, R33, R137, R138). -/
def Obligations.StepKeepsInvariant : Prop :=
  ∀ s t : State, BlockInv s → step s = .next t → BlockInv t

/-- Rules R170, R210: INIT from any state performs the reset transition, and leaves the configuration, the
host's inputs and the port bits of no signal. -/
def Obligations.InitPerformsReset : Prop :=
  ∀ s : State, pinsLegal s.cfg.pins = true → s.cfg.n < 16 →
    ∃ t, exec .init s = .next t
      ∧ (∀ k z row c h, bpWord t k z row c h = 0#32)
      ∧ t.disp = 0#1 ∧ t.fault = 0#1 ∧ t.fcause = 0#2 ∧ t.finfo = 0#64 ∧ t.result = 0#32
      ∧ (∀ sig, levelOf s.cfg.pins t.out sig = false ∧ levelOf s.cfg.pins t.dirv sig = true)
      ∧ (∀ k, (∀ sig, pinOf s.cfg.pins sig ≠ k) →
          t.out.getLsbD k = s.out.getLsbD k ∧ t.dirv.getLsbD k = s.dirv.getLsbD k)
      ∧ t.trace = [.dir (maskOf s.cfg.pins allSignals), .clr (maskOf s.cfg.pins allSignals)]
      ∧ t.cfg = s.cfg ∧ t.inputs = s.inputs
      ∧ readStatus t = BitVec.ofNat 32 (16 * s.cfg.n)

/-- Rule R32: the fields of STATUS. -/
def Obligations.StatusFields : Prop :=
  ∀ s : State, s.cfg.n < 16 →
    (readStatus s).toNat = s.fault.toNat + 2 * s.fcause.toNat + 8 * s.disp.toNat + 16 * s.cfg.n

/-! ### The quantizer -/

/-- Rule R103: QUANT puts the table entry, zero-extended, into RESULT and changes nothing else. -/
def Obligations.QuantReturnsTableEntry : Prop :=
  ∀ (s : State) (v : Field), ∃ t, exec (.quant v) s = .next t
    ∧ t.result.toNat = (lutAt s.cfg v).toNat ∧ t = setResult s t.result

/-- Rule R101 in terms of QUANT: the end points, monotonicity and the bound, for every legal table. -/
def Obligations.QuantMeetsTableProperties : Prop :=
  ∀ s : State, lutLegal s.cfg = true →
    (∃ t, exec (.quant 0#8) s = .next t ∧ t.result.toNat = 0)
      ∧ (∃ t, exec (.quant 255#8) s = .next t ∧ t.result.toNat = 2 ^ s.cfg.n - 1)
      ∧ ∀ u v : Field, u.toNat ≤ v.toNat → ∃ t t', exec (.quant u) s = .next t
          ∧ exec (.quant v) s = .next t' ∧ t.result.toNat ≤ t'.result.toNat
          ∧ t'.result.toNat ≤ 2 ^ s.cfg.n - 1

/-- Rule R102: with the recipe P_ZERO, P_MAX, P_MONO and P_RANGE hold for every GAMMA above 0 and every N. -/
def Obligations.RecipeFillsLegalTable : Prop :=
  ∀ (γ : ℝ) (cfg : Config), 0 < γ → 1 ≤ cfg.n → cfg.lut.length = 256 → FilledByRecipe γ cfg →
    lutLegal cfg = true

/-- Rule R102: for GAMMA = 2 the recipe is the integer formula. -/
def Obligations.SquareRecipeIsInteger : Prop :=
  ∀ cfg : Config, 1 ≤ cfg.n → cfg.n ≤ 8 → cfg.lut = gamma2Lut cfg.n → FilledByRecipe 2 cfg

/-- Rule R104: the thresholds of the reference table. -/
def Obligations.ReferenceThresholds : Prop :=
  ∀ v : Field, ∀ q < 32, (lutAt referenceConfig v).toNat = q ↔
    [0, 46, 65, 80, 92, 103, 113, 122, 130, 138, 145, 152, 159, 166, 172, 178, 184, 189, 195, 200, 205,
      210, 215, 220, 225, 229, 234, 238, 243, 247, 251, 255, 256].getD q 0 ≤ v.toNat
    ∧ v.toNat < [0, 46, 65, 80, 92, 103, 113, 122, 130, 138, 145, 152, 159, 166, 172, 178, 184, 189, 195,
      200, 205, 210, 215, 220, 225, 229, 234, 238, 243, 247, 251, 255, 256].getD (q + 1) 0

/-! ### SETPIX -/

/-- Rule R112: SETPIX at legal coordinates ORs bit z of each quantized channel into its word of the write bank,
leaves every other word, and changes no other state. -/
def Obligations.SetpixOrsPlaneBits : Prop :=
  ∀ (s : State) (x y r g b : Field), x.toNat < 64 → y.toNat < 32 →
    ∃ t, exec (.setpix x y r g b) s = .next t ∧ t = setBp s t.bp
      ∧ (∀ z < s.cfg.n, ∀ c : Colour,
          bpWord t (writeBank s) z y.toNat (colourIdx c) (x.toNat / 32) =
            bpWord s (writeBank s) z y.toNat (colourIdx c) (x.toNat / 32)
              ||| ((BitVec.ofBool ((lutAt s.cfg (channelOf r g b c)).getLsbD z)).setWidth 32
                <<< (x.toNat % 32)))
      ∧ ∀ o, (∀ z < s.cfg.n, ∀ c : Colour,
            o ≠ wordOffset s.cfg.n (writeBank s) z y.toNat (colourIdx c) (x.toNat / 32)) →
          readWord t.bp o = readWord s.bp o

/-- Rule R121: SETPIX acts on one lane of each word it touches and leaves the other 31 lanes. -/
def Obligations.SetpixLeavesOtherLanes : Prop :=
  ∀ (s t : State) (x y r g b : Field), x.toNat < 64 → y.toNat < 32 →
    exec (.setpix x y r g b) s = .next t →
      ∀ o lane, lane ≠ x.toNat % 32 → (readWord t.bp o).getLsbD lane = (readWord s.bp o).getLsbD lane

/-- Rules R113, R184: SETPIX with a coordinate out of range records COORD_RANGE and the command word if no fault
is recorded, and does nothing else. -/
def Obligations.SetpixOutOfRangeFaults : Prop :=
  ∀ (s : State) (w : Cmd) (rest : List Input) (x y r g b : Field), configLegal s.cfg = true →
    s.inputs = .command w :: rest → decode w = .ok (.setpix x y r g b) →
    64 ≤ x.toNat ∨ 32 ≤ y.toNat →
      (s.fault = 0#1 → step s = .next { s with inputs := rest, fault := 1#1, fcause := 2#2, finfo := w })
        ∧ (s.fault = 1#1 → step s = .next { s with inputs := rest })

/-- Rule R115: after SETPIX on a pixel that was 0 the pixel reads as its quantized channels, every other pixel
of the write bank and all of the display bank read as before; after a following SWAP the same values are in the
display bank. -/
def Obligations.SetpixRoundTrip : Prop :=
  ∀ (s : State) (x y r g b : Field), lutLegal s.cfg = true → x.toNat < 64 → y.toNat < 32 →
    (∀ c, pixValue s (writeBank s) x.toNat y.toNat c = 0) →
    ∃ t u, exec (.setpix x y r g b) s = .next t ∧ exec .swap t = .next u
      ∧ (∀ c, pixValue t (writeBank s) x.toNat y.toNat c = (lutAt s.cfg (channelOf r g b c)).toNat
          ∧ pixValue u (displayBank u) x.toNat y.toNat c = (lutAt s.cfg (channelOf r g b c)).toNat)
      ∧ (∀ x' < 64, ∀ y' < 32, ∀ c, (x', y') ≠ (x.toNat, y.toNat) →
          pixValue t (writeBank s) x' y' c = pixValue s (writeBank s) x' y' c)
      ∧ ∀ z row c h, InRange s.cfg.n z row c h →
          bpWord t (displayBank s) z row c h = bpWord s (displayBank s) z row c h

/-- Rule R114: two SETPIX to one pixel that was 0 leave the bitwise OR of the two quantized values. -/
def Obligations.RepeatedSetpixAccumulates : Prop :=
  ∀ (s : State) (x y r1 g1 b1 r2 g2 b2 : Field), lutLegal s.cfg = true → x.toNat < 64 → y.toNat < 32 →
    (∀ c, pixValue s (writeBank s) x.toNat y.toNat c = 0) →
    ∃ t, execAll [.setpix x y r1 g1 b1, .setpix x y r2 g2 b2] s = .next t
      ∧ ∀ c, pixValue t (writeBank s) x.toNat y.toNat c =
          (lutAt s.cfg (channelOf r1 g1 b1 c) ||| lutAt s.cfg (channelOf r2 g2 b2 c)).toNat

/-! ### CLEAR, SWAP, RDW -/

/-- Rule R116: CLEAR zeroes every word of the write bank, leaves every other word, and changes no other state. -/
def Obligations.ClearZeroesWriteBank : Prop :=
  ∀ s : State, ∃ t, exec .clear s = .next t ∧ t = setBp s t.bp
    ∧ (∀ z row c h, InRange s.cfg.n z row c h → bpWord t (writeBank s) z row c h = 0#32)
    ∧ ∀ o, (∀ z row c h, InRange s.cfg.n z row c h → o ≠ wordOffset s.cfg.n (writeBank s) z row c h) →
        readWord t.bp o = readWord s.bp o

/-- Rule R117: after CLEAR every pixel of the write bank reads 0, and a second CLEAR changes nothing
(rule R116, corner case). -/
def Obligations.ClearedPixelsReadZero : Prop :=
  ∀ s : State, ∃ t, exec .clear s = .next t ∧ exec .clear t = .next t
    ∧ ∀ x < 64, ∀ y < 32, ∀ c, pixValue t (writeBank t) x y c = 0

/-- Rules R118, R119: SWAP exchanges the two roles, changes nothing else, and a second SWAP restores the state. -/
def Obligations.SwapExchangesRoles : Prop :=
  ∀ s : State, ∃ t, exec .swap s = .next t ∧ t = setDisp s t.disp
    ∧ t.disp.toNat = 1 - s.disp.toNat
    ∧ displayBank t = writeBank s ∧ writeBank t = displayBank s ∧ exec .swap t = .next s

/-- Rule R120: RDW with legal operands puts the word it names into RESULT and changes nothing else. -/
def Obligations.RdwReturnsNamedWord : Prop :=
  ∀ (s : State) (role plane row colour half : Field), role.toNat < 2 → plane.toNat < s.cfg.n →
    row.toNat < 32 → colour.toNat < 3 → half.toNat < 2 →
    ∃ t, exec (.rdw role plane row colour half) s = .next t ∧ t = setResult s t.result
      ∧ t.result = bpWord s (if role.toNat = 0 then s.disp.toNat else 1 - s.disp.toNat)
          plane.toNat row.toNat colour.toNat half.toNat

/-- Rules R120, R184: RDW with an operand out of range records INDEX_RANGE and the command word if no fault is
recorded, and does nothing else. -/
def Obligations.RdwOutOfRangeFaults : Prop :=
  ∀ (s : State) (w : Cmd) (rest : List Input) (role plane row colour half : Field),
    configLegal s.cfg = true → s.inputs = .command w :: rest →
    decode w = .ok (.rdw role plane row colour half) →
    2 ≤ role.toNat ∨ s.cfg.n ≤ plane.toNat ∨ 32 ≤ row.toNat ∨ 3 ≤ colour.toNat ∨ 2 ≤ half.toNat →
      (s.fault = 0#1 → step s = .next { s with inputs := rest, fault := 1#1, fcause := 3#2, finfo := w })
        ∧ (s.fault = 1#1 → step s = .next { s with inputs := rest })

/-- Rule R51: no command but INIT changes a word of the bank that was on display, and only SETPIX and CLEAR (and
INIT) change the array at all. -/
def Obligations.DisplayBankIsolation : Prop :=
  ∀ (i : Instr) (s t : State), i ≠ .init → exec i s = .next t →
    (∀ z row c h, InRange s.cfg.n z row c h →
        bpWord t (displayBank s) z row c h = bpWord s (displayBank s) z row c h)
      ∧ ((∀ x y r g b, i ≠ .setpix x y r g b) → i ≠ .clear → t.bp = s.bp)

/-- Rule R55: the offsets below 2 × N × 192 are those of the tuples in range, each of exactly one. -/
def Obligations.LayoutNumbersEveryWordOnce : Prop :=
  ∀ n : Nat,
    (∀ k z row c h, k < 2 → InRange n z row c h → wordOffset n k z row c h < 2 * n * 192)
      ∧ ∀ o < 2 * n * 192, ∃! p : Nat × Nat × Nat × Nat × Nat,
          p.1 < 2 ∧ InRange n p.2.1 p.2.2.1 p.2.2.2.1 p.2.2.2.2
            ∧ wordOffset n p.1 p.2.1 p.2.2.1 p.2.2.2.1 p.2.2.2.2 = o

/-! ### SHIFT_ROW and REFRESH -/

/-- Rules R135, R141: 64 column steps and a latch step, each a sequence of port writes and a settle, append
STROBE to the trace and apply its writes to OUT in order, and that is SHIFT_ROW. -/
def Obligations.ShiftRowPerformsStrobe : Prop :=
  ∀ (s : State) (a : Nat) (top bot : RowWords),
    latchWrites ((List.range 64).foldl (columnWrites top bot) s) a = shiftRow s a top bot
      ∧ (shiftRow s a top bot).trace = s.trace ++ strobe s.cfg.pins a top bot
      ∧ (shiftRow s a top bot).out = outAfter s.out (strobe s.cfg.pins a top bot)

/-- Rules R150, R151: REFRESH appends the sweep of the display bank to the trace, drives OUT by it, and changes
nothing else. -/
def Obligations.RefreshAppendsSweep : Prop :=
  ∀ s : State, ∃ t, exec .refresh s = .next t
    ∧ t.trace = s.trace ++ sweep s.cfg.pins s.cfg.n (bankWords s (displayBank s))
    ∧ t.out = outAfter s.out (sweep s.cfg.pins s.cfg.n (bankWords s (displayBank s)))
    ∧ t = { s with out := t.out, trace := t.trace }

/-- Rule R139: the counts of a strobe, and its clock, latch and output-enable edges. -/
def Obligations.StrobeCounts : Prop :=
  ∀ (pm : PinMap) (a : Nat) (top bot : RowWords),
    (strobe pm a top bot).length = 260
      ∧ (strobe pm a top bot).countP Event.isWrite = 195
      ∧ (strobe pm a top bot).countP isClr = 130
      ∧ (strobe pm a top bot).countP isSet = 65
      ∧ (strobe pm a top bot).countP (fun e => !e.isWrite) = 65
      ∧ cyclesOf (strobe pm a top bot) = 66
      ∧ ∀ out : Word, pinsLegal pm = true → levelOf pm out .clk = false → levelOf pm out .lat = false →
          levelOf pm out .oe = false →
          risingEdges pm .clk out (strobe pm a top bot) = 64
            ∧ fallingEdges pm .clk out (strobe pm a top bot) = 64
            ∧ risingEdges pm .lat out (strobe pm a top bot) = 1
            ∧ fallingEdges pm .lat out (strobe pm a top bot) = 1
            ∧ levelTrace pm .oe out (strobe pm a top bot) = levelTrace pm .lat out (strobe pm a top bot)

/-- Rule R152: the counts of a sweep, of a plane and of a row pair. -/
def Obligations.SweepCounts : Prop :=
  ∀ (pm : PinMap) (n : Nat) (bank : Nat → Nat → RowWords),
    (schedule n).length = 16 * (2 ^ n - 1)
      ∧ (sweep pm n bank).length = 260 * (16 * (2 ^ n - 1))
      ∧ (sweep pm n bank).countP Event.isWrite = 195 * (16 * (2 ^ n - 1))
      ∧ cyclesOf (sweep pm n bank) = 66 * (16 * (2 ^ n - 1))
      ∧ (∀ out, pinsLegal pm = true → levelOf pm out .clk = false →
          risingEdges pm .clk out (sweep pm n bank) = 64 * (16 * (2 ^ n - 1)))
      ∧ (∀ z < n, (schedule n).countP (fun p => decide (p.z = z)) = 16 * 2 ^ z)
      ∧ (∀ a < 16, (schedule n).countP (fun p => decide (p.a = a)) = 2 ^ n - 1)
      ∧ ∀ z < n, ∀ a < 16, (schedule n).countP (fun p => decide (p.z = z ∧ p.a = a)) = 2 ^ z

/-- Rule R157: the position of every strobe in the sweep. -/
def Obligations.StrobeNumbering : Prop :=
  ∀ n : Nat,
    (∀ z k a, z < n → k < 2 ^ z → a < 16 →
        (schedule n)[16 * (2 ^ z - 1 + k) + a]? = some { z := z, k := k, a := a })
      ∧ (∀ s < 16 * (2 ^ n - 1), (schedule n)[s]? = some
          { z := Nat.log2 (s / 16 + 1), k := s / 16 + 1 - 2 ^ Nat.log2 (s / 16 + 1), a := s % 16 })
      ∧ ∀ s < 16 * (2 ^ n - 1), ∀ z < n,
          (∃ p, (schedule n)[s]? = some p ∧ p.z = z) ↔
            16 * (2 ^ z - 1) ≤ s ∧ s < 16 * (2 ^ (z + 1) - 1)

/-- Rule R138, its first sentence: the levels every strobe leaves, whatever the levels before it. -/
def Obligations.StrobeExitLevels : Prop :=
  ∀ (pm : PinMap) (a : Nat) (top bot : RowWords) (out : Word), pinsLegal pm = true → a < 16 →
    (∀ sig ∈ [Signal.clk, .lat, .oe, .e],
        levelOf pm (outAfter out (strobe pm a top bot)) sig = false)
      ∧ (∀ sig k, addrBit sig = some k →
          levelOf pm (outAfter out (strobe pm a top bot)) sig = a.testBit k)
      ∧ ∀ c, levelOf pm (outAfter out (strobe pm a top bot)) (upperLine c) = columnBit top c 63
          ∧ levelOf pm (outAfter out (strobe pm a top bot)) (lowerLine c) = columnBit bot c 63

/-- Rule R137: all five address lines are cleared in every strobe, `addr(a)` is the lines whose bit of a is 1,
and line E is never set by a sweep. -/
def Obligations.LineENeverSet : Prop :=
  (∀ a < 16, ∀ sig, (sig ∈ addrSignals a ↔ ∃ k, addrBit sig = some k ∧ a.testBit k = true)
      ∧ Signal.e ∉ addrSignals a)
    ∧ (∀ (pm : PinMap) (a : Nat) (top bot : RowWords),
        Event.clr (maskOf pm [.a, .b, .c, .d, .e]) ∈ strobe pm a top bot)
    ∧ ∀ (pm : PinMap) (n : Nat) (bank : Nat → Nat → RowWords) (m : Word), pinsLegal pm = true →
        Event.set m ∈ sweep pm n bank → levelOf pm m .e = false

/-- Rule R153, the binary-weighting law, of the events a REFRESH appends to the trace: of the 2^N − 1 strobes of
its row pair, a pixel's line is set in column step x in as many as the display bank's value of the pixel. -/
def Obligations.BinaryWeightingLaw : Prop :=
  ∀ (s : State) (x y : Nat) (c : Colour), pinsLegal s.cfg.pins = true → x < 64 → y < 32 →
    ∃ t, exec .refresh s = .next t
      ∧ litStrobes s.cfg.pins s.cfg.n t.trace s.trace.length (y % 16) x (rowLine y c) =
          pixValue s (displayBank s) x y c
      ∧ ((List.range (16 * (2 ^ s.cfg.n - 1))).filter (fun k => decide (k % 16 = y % 16))).length =
          2 ^ s.cfg.n - 1

/-- Rule R154: after any commands but SWAP and INIT, a REFRESH appends the event list it would have appended
before them. -/
def Obligations.RefreshRepeatsUntilSwap : Prop :=
  ∀ (s : State) (is : List Instr), (∀ i ∈ is, changesDisplay i = false) →
    ∃ t u, execAll is s = .next t ∧ exec .refresh t = .next u
      ∧ u.trace = t.trace ++ sweep s.cfg.pins s.cfg.n (bankWords s (displayBank s))

/-- Rules R66, R151: what a REFRESH appends depends on the configuration and on the display bank's words alone,
not on the write bank, the pin levels, the fault record or earlier commands. -/
def Obligations.SweepDependsOnDisplayBank : Prop :=
  ∀ s s' : State, s'.cfg = s.cfg →
    (∀ z row c h, InRange s.cfg.n z row c h →
      bpWord s' (displayBank s') z row c h = bpWord s (displayBank s) z row c h) →
    ∃ t t' es, exec .refresh s = .next t ∧ exec .refresh s' = .next t'
      ∧ t.trace = s.trace ++ es ∧ t'.trace = s'.trace ++ es

/-- Rule R63: a REFRESH after a SWAP appends the sweep of what the write bank held before the SWAP. -/
def Obligations.SwapPublishesWriteBank : Prop :=
  ∀ s : State, ∃ t u, exec .swap s = .next t ∧ exec .refresh t = .next u
    ∧ u.trace = s.trace ++ sweep s.cfg.pins s.cfg.n (bankWords s (writeBank s))

/-- Rule R144 (a reader's aid, not normative): after a strobe that begins with CLK low the observer has latched
the 64 columns in the order they were clocked, selects row address a with the output on, and shows the top
words on row a and the bottom words on row a + 16, whatever it held before. -/
def Obligations.PanelLatchesStrobe : Prop :=
  ∀ (pm : PinMap) (a : Nat) (top bot : RowWords) (out : Word) (p : Panel), pinsLegal pm = true → a < 16 →
    levelOf pm out .clk = false → p.sr.length = 64 →
    (panelAfter pm out p (strobe pm a top bot)).latched =
        (List.range 64).map (fun i => BitVec.ofNat 6 (columnLevels top bot i))
      ∧ (panelAfter pm out p (strobe pm a top bot)).addrSel.toNat = a
      ∧ (panelAfter pm out p (strobe pm a top bot)).blank = false
      ∧ panelShows (panelAfter pm out p (strobe pm a top bot)) a =
          (List.range 64).map (fun i => BitVec.ofNat 3 (columnLevels top bot i))
      ∧ panelShows (panelAfter pm out p (strobe pm a top bot)) (a + 16) =
          (List.range 64).map (fun i => BitVec.ofNat 3 (columnLevels top bot i / 8))

/-- Rule R30: no command changes a bit of OUT or DIRV that belongs to no signal. -/
def Obligations.PlatformBitsUntouched : Prop :=
  ∀ (i : Instr) (s t : State) (k : Nat), exec i s = .next t → (∀ sig, pinOf s.cfg.pins sig ≠ k) →
    t.out.getLsbD k = s.out.getLsbD k ∧ t.dirv.getLsbD k = s.dirv.getLsbD k

/-- Rules R59, R62: every command but INIT only appends to the trace, OUT and DIRV are what the appended events
make of them, and only REFRESH appends any. -/
def Obligations.TraceExplainsThePins : Prop :=
  ∀ (i : Instr) (s t : State), i ≠ .init → exec i s = .next t →
    ∃ es, t.trace = s.trace ++ es ∧ t.out = outAfter s.out es ∧ t.dirv = dirAfter s.dirv es
      ∧ (i ≠ .refresh → es = [])

/-! ### Faults -/

/-- Rules R184, R185: the first fault is kept until a reset. -/
def Obligations.FirstFaultIsKept : Prop :=
  ∀ (i : Instr) (s t : State), i ≠ .init → s.fault = 1#1 → exec i s = .next t →
    t.fault = 1#1 ∧ t.fcause = s.fcause ∧ t.finfo = s.finfo

/-- Rule R185: FAULT gates nothing: from states that differ in the fault record only, a command leaves states
that differ in the fault record only. -/
def Obligations.FaultGatesNothing : Prop :=
  ∀ (i : Instr) (s s' t t' : State), SameButRecord s s' → exec i s = .next t → exec i s' = .next t' →
    SameButRecord t t'

/-- Rule R181: from a state without a fault a command other than INIT faults exactly when an operand is out of
range, SETPIX with COORD_RANGE and RDW with INDEX_RANGE, and records its own word. -/
def Obligations.FaultsExactlyOutOfRange : Prop :=
  ∀ (i : Instr) (s t : State), i ≠ .init → s.fault = 0#1 → exec i s = .next t →
    (t.fault = 1#1 ↔ i.WellFormed s.cfg.n = false)
      ∧ (t.fault = 1#1 → t.finfo = encode i
          ∧ t = { s with fault := t.fault, fcause := t.fcause, finfo := t.finfo }
          ∧ ((∃ x y r g b, i = .setpix x y r g b ∧ t.fcause = 2#2)
            ∨ ∃ role plane row colour half, i = .rdw role plane row colour half ∧ t.fcause = 3#2))

/-! ### DRAW -/

/-- Rules R160, R162: what one DRAW issues, for every refresh interval: a CLEAR first, a SWAP last, and between
them 2048 SETPIX and the REFRESH; no other command. -/
def Obligations.DrawCommandCounts : Prop :=
  ∀ (interval : Nat) (bitmap : List Nat), 1 ≤ interval →
    (drawProgram interval bitmap).countP (fun i => decide (i = .clear)) = 1
      ∧ (drawProgram interval bitmap).countP (fun i => decide (i = .swap)) = 1
      ∧ (drawProgram interval bitmap).countP isSetpix = 2048
      ∧ (drawProgram interval bitmap).countP (fun i => decide (i = .refresh)) = 32 * (64 / interval)
      ∧ (drawProgram interval bitmap).length = 2050 + 32 * (64 / interval)
      ∧ (drawProgram interval bitmap).head? = some .clear
      ∧ (drawProgram interval bitmap).getLast? = some .swap

/-- Rule R161: a DRAW on an invalid bitmap is refused before any command. -/
def Obligations.InvalidBitmapRefused : Prop :=
  ∀ (s : State) (bitmap : List Nat) (rest : List Input), configLegal s.cfg = true →
    s.inputs = .draw bitmap :: rest → (bitmap.length ≠ 6144 ∨ ∃ v ∈ bitmap, 255 < v) →
      step s = .refused .invalidBitmap

/-- Rule R166: running a DRAW to its end puts the quantized bitmap on display, the old frame into the write bank,
and complements DISP. RESULT and the fault record stay (rule R160). The DRAW input takes one step and each command
of its expansion one more: that is the model's choice (log entry 14). -/
def Obligations.DrawShowsBitmap : Prop :=
  ∀ (s : State) (bitmap : List Nat) (rest : List Input), configLegal s.cfg = true →
    s.inputs = .draw bitmap :: rest → bitmapLegal bitmap = true →
      ∃ t : State, Host.Core.run core ((drawProgram s.cfg.drawInterval bitmap).length + 1) s = .next t
        ∧ t.inputs = rest
        ∧ (∀ x < 64, ∀ y < 32, ∀ c, pixValue t (displayBank t) x y c =
            (lutAt s.cfg (BitVec.ofNat 8 (bitmap.getD ((y * 64 + x) * 3 + colourIdx c) 0))).toNat)
        ∧ (∀ z row c h, InRange s.cfg.n z row c h →
            bpWord t (writeBank t) z row c h = bpWord s (displayBank s) z row c h)
        ∧ t.disp.toNat = 1 - s.disp.toNat
        ∧ t.result = s.result ∧ t.fault = s.fault ∧ t.fcause = s.fcause ∧ t.finfo = s.finfo

/-- Rule R163: every REFRESH inside a DRAW emits the sweep of the frame that was on display when it began, and
the first REFRESH after it emits the sweep of the new frame. The DRAW input takes one step and each command of its
expansion one more: that is the model's choice (log entry 14). -/
def Obligations.DrawSweepsOldFrame : Prop :=
  ∀ (s : State) (bitmap : List Nat) (rest : List Input), configLegal s.cfg = true →
    s.inputs = .draw bitmap :: rest → bitmapLegal bitmap = true →
      ∃ t u : State, Host.Core.run core ((drawProgram s.cfg.drawInterval bitmap).length + 1) s = .next t
        ∧ t.trace = s.trace ++
            (List.replicate (32 * (64 / s.cfg.drawInterval)) (displaySweep s)).flatten
        ∧ exec .refresh t = .next u ∧ u.trace = t.trace ++ displaySweep t
end

