-- ==== Sys2Proof/Laws/Memory.lean ====
section
/-! SUPPORT. The laws of the sparse array: a read after a write, the canonical form that every operation keeps,
and that canonical contents which read alike are equal. -/

namespace Sys2Proof.Machine

@[simp] theorem readWord_nil (b : Nat) : readWord [] b = 0#32 := rfl

theorem readWord_cons (e : Nat × Word) (m : Memory) (b : Nat) :
    readWord (e :: m) b = if e.1 = b then e.2 else readWord m b := rfl

/-- An offset that no entry lists reads 0. -/
theorem readWord_of_unlisted {m : Memory} {b : Nat} (h : ∀ e ∈ m, e.1 ≠ b) : readWord m b = 0#32 := by
  induction m with
  | nil => rfl
  | cons e m ih =>
    rw [readWord_cons, if_neg (h e (by simp)), ih fun x hx => h x (by simp [hx])]

/-- A filter that looks at offsets only keeps the words it lets through and drops the others. -/
theorem readWord_filter (m : Memory) (p : Nat → Bool) (b : Nat) :
    readWord (m.filter fun e => p e.1) b = if p b then readWord m b else 0#32 := by
  induction m with
  | nil => simp
  | cons e m ih =>
    by_cases hp : p e.1
    · rw [List.filter_cons, if_pos hp, readWord_cons, readWord_cons, ih]
      by_cases he : e.1 = b
      · subst he; simp [hp]
      · simp [he]
    · rw [List.filter_cons, if_neg hp, ih, readWord_cons]
      by_cases he : e.1 = b
      · subst he; simp [hp]
      · simp [he]

theorem readWord_dropWord (m : Memory) (a b : Nat) :
    readWord (dropWord m a) b = if b = a then 0#32 else readWord m b := by
  rw [dropWord, readWord_filter m (fun k => decide (k ≠ a)) b]
  by_cases h : b = a <;> simp [h]

theorem readWord_insertWord {m : Memory} {a : Nat} (h : ∀ e ∈ m, e.1 ≠ a) (v : Word) (b : Nat) :
    readWord (insertWord a v m) b = if b = a then v else readWord m b := by
  induction m with
  | nil => simp [insertWord, readWord_cons, eq_comm]
  | cons e m ih =>
    have he : e.1 ≠ a := h e (by simp)
    have ih := ih fun x hx => h x (by simp [hx])
    unfold insertWord
    split
    · rw [readWord_cons, readWord_cons, ih]
      by_cases hb : b = a
      · subst hb; simp [he]
      · simp [hb]
    · rw [readWord_cons]
      by_cases hb : b = a
      · simp [hb]
      · simp [hb, Ne.symm hb]

theorem dropWord_ne {m : Memory} {a : Nat} : ∀ e ∈ dropWord m a, e.1 ≠ a := by
  intro e he
  simpa [dropWord] using (List.mem_filter.mp he).2

/-- A read after a write: the word written at its offset, the old word elsewhere. -/
theorem readWord_writeWord (m : Memory) (a : Nat) (v : Word) (b : Nat) :
    readWord (writeWord m a v) b = if b = a then v else readWord m b := by
  unfold writeWord
  split
  · next h => rw [readWord_dropWord]; by_cases hb : b = a <;> simp [hb, h, unlistedWord]
  · rw [readWord_insertWord dropWord_ne, readWord_dropWord]
    by_cases hb : b = a <;> simp [hb]

@[simp] theorem readWord_writeWord_same (m : Memory) (a : Nat) (v : Word) :
    readWord (writeWord m a v) a = v := by
  simp [readWord_writeWord]

theorem readWord_writeWord_of_ne (m : Memory) {a b : Nat} (h : b ≠ a) (v : Word) :
    readWord (writeWord m a v) b = readWord m b := by
  simp [readWord_writeWord, h]

/-- After a range is zeroed its words read 0 and the others read as before. -/
theorem readWord_zeroRange (m : Memory) (lo len b : Nat) :
    readWord (zeroRange m lo len) b = if lo ≤ b ∧ b < lo + len then 0#32 else readWord m b := by
  rw [zeroRange, readWord_filter m (fun k => decide (k < lo ∨ lo + len ≤ k)) b]
  by_cases h : lo ≤ b ∧ b < lo + len
  · rw [if_pos h, if_neg (by simp; omega)]
  · rw [if_neg h, if_pos (by simp; omega)]

theorem memoryWf_iff (m : Memory) :
    memoryWf m = true ↔ m.Pairwise (fun p q => p.1 < q.1) ∧ ∀ e ∈ m, e.2 ≠ 0#32 := by
  rw [memoryWf, Bool.and_eq_true, decide_eq_true_iff, List.all_eq_true]
  exact and_congr Iff.rfl (forall₂_congr fun _ _ => decide_eq_true_iff)

theorem memoryWithin_iff (size : Nat) (m : Memory) :
    memoryWithin size m = true ↔ ∀ e ∈ m, e.1 < size := by
  simp [memoryWithin]

@[simp] theorem memoryWf_nil : memoryWf [] = true := by
  simp [memoryWf_iff]

@[simp] theorem memoryWithin_nil (size : Nat) : memoryWithin size [] = true := rfl

theorem memoryWf_filter {m : Memory} (h : memoryWf m = true) (p : Nat × Word → Bool) :
    memoryWf (m.filter p) = true := by
  rw [memoryWf_iff] at *
  exact ⟨h.1.sublist List.filter_sublist, fun e he => h.2 e (List.mem_filter.mp he).1⟩

theorem mem_insertWord {a : Nat} {v : Word} {m : Memory} {e : Nat × Word} :
    e ∈ insertWord a v m ↔ e = (a, v) ∨ e ∈ m := by
  induction m with
  | nil => simp [insertWord]
  | cons x m ih =>
    unfold insertWord
    split
    · simp only [List.mem_cons, ih]; tauto
    · simp

theorem pairwise_insertWord {a : Nat} {v : Word} {m : Memory}
    (hm : m.Pairwise (fun p q => p.1 < q.1)) (h : ∀ e ∈ m, e.1 ≠ a) :
    (insertWord a v m).Pairwise (fun p q => p.1 < q.1) := by
  induction m with
  | nil => simp [insertWord]
  | cons x m ih =>
    have hx := List.pairwise_cons.mp hm
    unfold insertWord
    split
    · next hlt =>
      refine List.pairwise_cons.mpr ⟨fun e he => ?_, ih hx.2 fun e he => h e (by simp [he])⟩
      rcases mem_insertWord.mp he with rfl | he
      · exact hlt
      · exact hx.1 e he
    · next hge =>
      have hxa : a < x.1 := by have := h x (by simp); omega
      refine List.pairwise_cons.mpr ⟨fun e he => ?_, hm⟩
      rcases List.mem_cons.mp he with rfl | he
      · exact hxa
      · exact lt_trans hxa (hx.1 e he)

/-- A write keeps the canonical form. -/
theorem memoryWf_writeWord {m : Memory} (h : memoryWf m = true) (a : Nat) (v : Word) :
    memoryWf (writeWord m a v) = true := by
  have hd : memoryWf (dropWord m a) = true := memoryWf_filter h _
  unfold writeWord
  split
  · exact hd
  · next hv =>
    rw [memoryWf_iff] at hd ⊢
    refine ⟨pairwise_insertWord hd.1 dropWord_ne, fun e he => ?_⟩
    rcases mem_insertWord.mp he with rfl | he
    · exact hv
    · exact hd.2 e he

/-- A zeroed range keeps the canonical form. -/
theorem memoryWf_zeroRange {m : Memory} (h : memoryWf m = true) (lo len : Nat) :
    memoryWf (zeroRange m lo len) = true :=
  memoryWf_filter h _

/-- A write inside the array keeps the contents inside the array. -/
theorem memoryWithin_writeWord {m : Memory} {size a : Nat} (h : memoryWithin size m = true)
    (ha : a < size) (v : Word) : memoryWithin size (writeWord m a v) = true := by
  rw [memoryWithin_iff] at *
  have hd : ∀ e ∈ dropWord m a, e.1 < size := fun e he => h e (List.mem_filter.mp he).1
  unfold writeWord
  split
  · exact hd
  · intro e he
    rcases mem_insertWord.mp he with rfl | he
    · exact ha
    · exact hd e he

theorem memoryWithin_zeroRange {m : Memory} {size : Nat} (h : memoryWithin size m = true)
    (lo len : Nat) : memoryWithin size (zeroRange m lo len) = true := by
  rw [memoryWithin_iff] at *
  exact fun e he => h e (List.mem_filter.mp he).1

/-- Contents within the array read 0 outside it. -/
theorem readWord_of_within {m : Memory} {size b : Nat} (h : memoryWithin size m = true) (hb : size ≤ b) :
    readWord m b = 0#32 :=
  readWord_of_unlisted fun e he => by have := (memoryWithin_iff size m).mp h e he; omega

/-- In canonical form an offset is listed exactly when its word is not 0. -/
theorem readWord_of_mem {m : Memory} (h : memoryWf m = true) {e : Nat × Word} (he : e ∈ m) :
    readWord m e.1 = e.2 := by
  have hp := ((memoryWf_iff m).mp h).1
  clear h
  induction m with
  | nil => simp at he
  | cons x m ih =>
    have hx := List.pairwise_cons.mp hp
    rw [readWord_cons]
    rcases List.mem_cons.mp he with rfl | he
    · simp
    · rw [if_neg (ne_of_lt (hx.1 e he)), ih he hx.2]

/-- Canonical contents that read alike at every offset are equal data. -/
theorem memory_ext {m m' : Memory} (h : memoryWf m = true) (h' : memoryWf m' = true)
    (hr : ∀ b, readWord m b = readWord m' b) : m = m' := by
  have key : ∀ {p q : Memory}, memoryWf p = true → memoryWf q = true →
      (∀ b, readWord p b = readWord q b) → p ⊆ q := by
    intro p q hp hq hpq e he
    have hv : e.2 ≠ 0#32 := ((memoryWf_iff p).mp hp).2 e he
    have hq' : readWord q e.1 = e.2 := by rw [← hpq, readWord_of_mem hp he]
    by_contra hne
    by_cases hl : ∃ x ∈ q, x.1 = e.1
    · obtain ⟨x, hx, hxe⟩ := hl
      have : x.2 = e.2 := by rw [← readWord_of_mem hq hx, hxe, hq']
      exact hne (by rwa [← Prod.ext hxe this])
    · exact hv (by rw [← hq', readWord_of_unlisted fun x hx hxe => hl ⟨x, hx, hxe⟩])
  have hp := ((memoryWf_iff m).mp h).1
  have hp' := ((memoryWf_iff m').mp h').1
  have nd : ∀ {p : Memory}, p.Pairwise (fun a b => a.1 < b.1) → p.Nodup := fun hpw =>
    hpw.imp fun hab he => by rw [he] at hab; exact lt_irrefl _ hab
  refine List.Perm.eq_of_pairwise (le := fun p q => p.1 < q.1)
    (fun a b _ _ h1 h2 => absurd h1 (not_lt_of_gt h2)) hp hp'
    ((List.perm_ext_iff_of_nodup (nd hp) (nd hp')).mpr fun e =>
      ⟨fun he => key h h' hr he, fun he => key h' h (fun b => (hr b).symm) he⟩)

end Sys2Proof.Machine
end

