-- ==== Sys2Proof/Laws/Operands.lean ====
section
/-! SUPPORT. The laws of bank roles and of word offsets: the two roles are different banks, and different tuples
in range are different offsets inside the array. -/

namespace Sys2Proof.Machine

theorem displayBank_lt (s : State) : displayBank s < 2 := s.disp.isLt

theorem writeBank_lt (s : State) : writeBank s < 2 := by
  unfold writeBank; omega

/-- D ≠ W at all times (rule R23). -/
theorem displayBank_ne_writeBank (s : State) : displayBank s ≠ writeBank s := by
  unfold displayBank writeBank; omega

theorem colourIdx_lt (c : Colour) : colourIdx c < 3 := by
  cases c <;> decide

theorem colourIdx_injective {c d : Colour} (h : colourIdx c = colourIdx d) : c = d := by
  revert h; cases c <;> cases d <;> simp [colourIdx]

/-- A tuple in range has an offset inside its bank (rule R55). -/
theorem wordOffset_bank {n k z row c h : Nat} (hz : z < n) (hr : row < 32) (hc : c < 3) (hh : h < 2) :
    k * bankSize n ≤ wordOffset n k z row c h ∧ wordOffset n k z row c h < (k + 1) * bankSize n := by
  unfold wordOffset bankSize
  have : (k + 1) * (n * 192) = k * (n * 192) + n * 192 := Nat.succ_mul _ _
  omega

/-- A tuple in range has an offset inside the array (rule R55). -/
theorem wordOffset_lt {n k z row c h : Nat} (hk : k < 2) (hz : z < n) (hr : row < 32) (hc : c < 3)
    (hh : h < 2) : wordOffset n k z row c h < arraySize n := by
  have := (wordOffset_bank (k := k) hz hr hc hh).2
  have hm : (k + 1) * bankSize n ≤ 2 * bankSize n := Nat.mul_le_mul_right _ (by omega)
  unfold arraySize
  omega

/-- Tuples in range with one offset are one tuple (rule R55). -/
theorem wordOffset_inj {n k z row c h k' z' row' c' h' : Nat} (hz : z < n) (hr : row < 32) (hc : c < 3)
    (hh : h < 2) (hz' : z' < n) (hr' : row' < 32) (hc' : c' < 3) (hh' : h' < 2)
    (he : wordOffset n k z row c h = wordOffset n k' z' row' c' h') :
    k = k' ∧ z = z' ∧ row = row' ∧ c = c' ∧ h = h' := by
  have b := wordOffset_bank (k := k) hz hr hc hh
  have b' := wordOffset_bank (k := k') hz' hr' hc' hh'
  have hk : k = k' := by
    by_contra hne
    rcases Nat.lt_or_gt_of_ne hne with hlt | hgt
    · have : (k + 1) * bankSize n ≤ k' * bankSize n := Nat.mul_le_mul_right _ hlt
      omega
    · have : (k' + 1) * bankSize n ≤ k * bankSize n := Nat.mul_le_mul_right _ hgt
      omega
  subst hk
  unfold wordOffset at he
  omega

end Sys2Proof.Machine
end

