-- ==== Sys2Proof/Laws/State.lean ====
section
/-! SUPPORT. What each update of the state leaves in each field: one lemma per field per update, so that no
later proof unfolds a record update. -/

namespace Sys2Proof.Machine

variable (s : State)

@[simp] theorem setBp_cfg (m : Memory) : (setBp s m).cfg = s.cfg := rfl
@[simp] theorem setBp_bp (m : Memory) : (setBp s m).bp = m := rfl
@[simp] theorem setBp_disp (m : Memory) : (setBp s m).disp = s.disp := rfl
@[simp] theorem setBp_fault (m : Memory) : (setBp s m).fault = s.fault := rfl
@[simp] theorem setBp_fcause (m : Memory) : (setBp s m).fcause = s.fcause := rfl
@[simp] theorem setBp_finfo (m : Memory) : (setBp s m).finfo = s.finfo := rfl
@[simp] theorem setBp_result (m : Memory) : (setBp s m).result = s.result := rfl
@[simp] theorem setBp_out (m : Memory) : (setBp s m).out = s.out := rfl
@[simp] theorem setBp_dirv (m : Memory) : (setBp s m).dirv = s.dirv := rfl
@[simp] theorem setBp_trace (m : Memory) : (setBp s m).trace = s.trace := rfl
@[simp] theorem setBp_inputs (m : Memory) : (setBp s m).inputs = s.inputs := rfl

@[simp] theorem setDisp_cfg (d : BitVec 1) : (setDisp s d).cfg = s.cfg := rfl
@[simp] theorem setDisp_bp (d : BitVec 1) : (setDisp s d).bp = s.bp := rfl
@[simp] theorem setDisp_disp (d : BitVec 1) : (setDisp s d).disp = d := rfl
@[simp] theorem setDisp_fault (d : BitVec 1) : (setDisp s d).fault = s.fault := rfl
@[simp] theorem setDisp_fcause (d : BitVec 1) : (setDisp s d).fcause = s.fcause := rfl
@[simp] theorem setDisp_finfo (d : BitVec 1) : (setDisp s d).finfo = s.finfo := rfl
@[simp] theorem setDisp_result (d : BitVec 1) : (setDisp s d).result = s.result := rfl
@[simp] theorem setDisp_out (d : BitVec 1) : (setDisp s d).out = s.out := rfl
@[simp] theorem setDisp_dirv (d : BitVec 1) : (setDisp s d).dirv = s.dirv := rfl
@[simp] theorem setDisp_trace (d : BitVec 1) : (setDisp s d).trace = s.trace := rfl
@[simp] theorem setDisp_inputs (d : BitVec 1) : (setDisp s d).inputs = s.inputs := rfl

@[simp] theorem setResult_cfg (v : BitVec 32) : (setResult s v).cfg = s.cfg := rfl
@[simp] theorem setResult_bp (v : BitVec 32) : (setResult s v).bp = s.bp := rfl
@[simp] theorem setResult_disp (v : BitVec 32) : (setResult s v).disp = s.disp := rfl
@[simp] theorem setResult_fault (v : BitVec 32) : (setResult s v).fault = s.fault := rfl
@[simp] theorem setResult_fcause (v : BitVec 32) : (setResult s v).fcause = s.fcause := rfl
@[simp] theorem setResult_finfo (v : BitVec 32) : (setResult s v).finfo = s.finfo := rfl
@[simp] theorem setResult_result (v : BitVec 32) : (setResult s v).result = v := rfl
@[simp] theorem setResult_out (v : BitVec 32) : (setResult s v).out = s.out := rfl
@[simp] theorem setResult_dirv (v : BitVec 32) : (setResult s v).dirv = s.dirv := rfl
@[simp] theorem setResult_trace (v : BitVec 32) : (setResult s v).trace = s.trace := rfl
@[simp] theorem setResult_inputs (v : BitVec 32) : (setResult s v).inputs = s.inputs := rfl

@[simp] theorem setInputs_cfg (is : List Input) : (setInputs s is).cfg = s.cfg := rfl
@[simp] theorem setInputs_bp (is : List Input) : (setInputs s is).bp = s.bp := rfl
@[simp] theorem setInputs_disp (is : List Input) : (setInputs s is).disp = s.disp := rfl
@[simp] theorem setInputs_fault (is : List Input) : (setInputs s is).fault = s.fault := rfl
@[simp] theorem setInputs_fcause (is : List Input) : (setInputs s is).fcause = s.fcause := rfl
@[simp] theorem setInputs_finfo (is : List Input) : (setInputs s is).finfo = s.finfo := rfl
@[simp] theorem setInputs_result (is : List Input) : (setInputs s is).result = s.result := rfl
@[simp] theorem setInputs_out (is : List Input) : (setInputs s is).out = s.out := rfl
@[simp] theorem setInputs_dirv (is : List Input) : (setInputs s is).dirv = s.dirv := rfl
@[simp] theorem setInputs_trace (is : List Input) : (setInputs s is).trace = s.trace := rfl
@[simp] theorem setInputs_inputs (is : List Input) : (setInputs s is).inputs = is := rfl

@[simp] theorem emit_cfg (es : List Event) : (emit s es).cfg = s.cfg := rfl
@[simp] theorem emit_bp (es : List Event) : (emit s es).bp = s.bp := rfl
@[simp] theorem emit_disp (es : List Event) : (emit s es).disp = s.disp := rfl
@[simp] theorem emit_fault (es : List Event) : (emit s es).fault = s.fault := rfl
@[simp] theorem emit_fcause (es : List Event) : (emit s es).fcause = s.fcause := rfl
@[simp] theorem emit_finfo (es : List Event) : (emit s es).finfo = s.finfo := rfl
@[simp] theorem emit_result (es : List Event) : (emit s es).result = s.result := rfl
@[simp] theorem emit_out (es : List Event) : (emit s es).out = outAfter s.out es := rfl
@[simp] theorem emit_dirv (es : List Event) : (emit s es).dirv = dirAfter s.dirv es := rfl
@[simp] theorem emit_trace (es : List Event) : (emit s es).trace = s.trace ++ es := rfl
@[simp] theorem emit_inputs (es : List Event) : (emit s es).inputs = s.inputs := rfl

@[simp] theorem clearState_cfg : (clearState s).cfg = s.cfg := rfl
@[simp] theorem clearState_bp : (clearState s).bp = [] := rfl
@[simp] theorem clearState_disp : (clearState s).disp = 0#1 := rfl
@[simp] theorem clearState_fault : (clearState s).fault = 0#1 := rfl
@[simp] theorem clearState_fcause : (clearState s).fcause = 0#2 := rfl
@[simp] theorem clearState_finfo : (clearState s).finfo = 0#64 := rfl
@[simp] theorem clearState_result : (clearState s).result = 0#32 := rfl
@[simp] theorem clearState_out : (clearState s).out = s.out := rfl
@[simp] theorem clearState_dirv : (clearState s).dirv = s.dirv := rfl
@[simp] theorem clearState_trace : (clearState s).trace = [] := rfl
@[simp] theorem clearState_inputs : (clearState s).inputs = s.inputs := rfl

@[simp] theorem platformWrite_cfg (o d : Word) : (platformWrite s o d).cfg = s.cfg := rfl
@[simp] theorem platformWrite_bp (o d : Word) : (platformWrite s o d).bp = s.bp := rfl
@[simp] theorem platformWrite_disp (o d : Word) : (platformWrite s o d).disp = s.disp := rfl
@[simp] theorem platformWrite_fault (o d : Word) : (platformWrite s o d).fault = s.fault := rfl
@[simp] theorem platformWrite_fcause (o d : Word) : (platformWrite s o d).fcause = s.fcause := rfl
@[simp] theorem platformWrite_finfo (o d : Word) : (platformWrite s o d).finfo = s.finfo := rfl
@[simp] theorem platformWrite_result (o d : Word) : (platformWrite s o d).result = s.result := rfl
@[simp] theorem platformWrite_out (o d : Word) :
    (platformWrite s o d).out =
      (s.out &&& maskOf s.cfg.pins allSignals) ||| (o &&& ~~~(maskOf s.cfg.pins allSignals)) := rfl
@[simp] theorem platformWrite_dirv (o d : Word) :
    (platformWrite s o d).dirv =
      (s.dirv &&& maskOf s.cfg.pins allSignals) ||| (d &&& ~~~(maskOf s.cfg.pins allSignals)) := rfl
@[simp] theorem platformWrite_trace (o d : Word) : (platformWrite s o d).trace = s.trace := rfl
@[simp] theorem platformWrite_inputs (o d : Word) : (platformWrite s o d).inputs = s.inputs := rfl

@[simp] theorem raiseFault_cfg (k : Cause) (w : Cmd) : (raiseFault s k w).cfg = s.cfg := by
  unfold raiseFault; split <;> rfl
@[simp] theorem raiseFault_bp (k : Cause) (w : Cmd) : (raiseFault s k w).bp = s.bp := by
  unfold raiseFault; split <;> rfl
@[simp] theorem raiseFault_disp (k : Cause) (w : Cmd) : (raiseFault s k w).disp = s.disp := by
  unfold raiseFault; split <;> rfl
@[simp] theorem raiseFault_result (k : Cause) (w : Cmd) : (raiseFault s k w).result = s.result := by
  unfold raiseFault; split <;> rfl
@[simp] theorem raiseFault_out (k : Cause) (w : Cmd) : (raiseFault s k w).out = s.out := by
  unfold raiseFault; split <;> rfl
@[simp] theorem raiseFault_dirv (k : Cause) (w : Cmd) : (raiseFault s k w).dirv = s.dirv := by
  unfold raiseFault; split <;> rfl
@[simp] theorem raiseFault_trace (k : Cause) (w : Cmd) : (raiseFault s k w).trace = s.trace := by
  unfold raiseFault; split <;> rfl
@[simp] theorem raiseFault_inputs (k : Cause) (w : Cmd) : (raiseFault s k w).inputs = s.inputs := by
  unfold raiseFault; split <;> rfl

/-- The first fault is recorded (rule R184). -/
theorem raiseFault_first (k : Cause) (w : Cmd) (h : s.fault = 0#1) :
    raiseFault s k w = { s with fault := 1#1, fcause := causeCode k, finfo := w } :=
  if_pos h

/-- A later fault changes nothing (rule R184). -/
theorem raiseFault_later (k : Cause) (w : Cmd) (h : s.fault = 1#1) : raiseFault s k w = s :=
  if_neg (by rw [h]; decide)

/-- After `raise` FAULT is 1 (rule R184). -/
@[simp] theorem raiseFault_fault (k : Cause) (w : Cmd) : (raiseFault s k w).fault = 1#1 := by
  unfold raiseFault
  split
  · rfl
  · next h => revert h; generalize s.fault = f; revert f; decide

@[simp] theorem resetBlock_cfg : (resetBlock s).cfg = s.cfg := rfl
@[simp] theorem resetBlock_bp : (resetBlock s).bp = [] := rfl
@[simp] theorem resetBlock_disp : (resetBlock s).disp = 0#1 := rfl
@[simp] theorem resetBlock_fault : (resetBlock s).fault = 0#1 := rfl
@[simp] theorem resetBlock_fcause : (resetBlock s).fcause = 0#2 := rfl
@[simp] theorem resetBlock_finfo : (resetBlock s).finfo = 0#64 := rfl
@[simp] theorem resetBlock_result : (resetBlock s).result = 0#32 := rfl
@[simp] theorem resetBlock_out : (resetBlock s).out = s.out &&& ~~~(maskOf s.cfg.pins allSignals) := rfl
@[simp] theorem resetBlock_dirv : (resetBlock s).dirv = s.dirv ||| maskOf s.cfg.pins allSignals := rfl
@[simp] theorem resetBlock_trace :
    (resetBlock s).trace =
      [.dir (maskOf s.cfg.pins allSignals), .clr (maskOf s.cfg.pins allSignals)] := rfl
@[simp] theorem resetBlock_inputs : (resetBlock s).inputs = s.inputs := rfl

/-- Events emitted one list after another are emitted as one list (rule R62). -/
theorem emit_append (es es' : List Event) : emit s (es ++ es') = emit (emit s es) es' := by
  simp [emit, outAfter, dirAfter, List.append_assoc]

@[simp] theorem emit_nil : emit s [] = s := by
  simp [emit, outAfter, dirAfter]

/-- The reset state of a configuration is what the reset transition leaves, for a block whose platform bits
are 0 and whose host has nothing to issue (rule R210). -/
theorem resetBlock_eq_resetWith (h : s.out &&& ~~~(maskOf s.cfg.pins allSignals) = 0#32)
    (hd : s.dirv ||| maskOf s.cfg.pins allSignals = maskOf s.cfg.pins allSignals) (hi : s.inputs = []) :
    resetBlock s = State.resetWith s.cfg := by
  rcases s with ⟨⟩
  simp only [resetBlock, portWrite, writeEvent, emit, clearState, outAfter, dirAfter, driveOut, driveDir,
    List.foldl, State.resetWith] at *
  simp [h, hd, hi]

end Sys2Proof.Machine
end

