-- ==== Sys2Proof/Laws/BitPlane.lean ====
section
/-! SUPPORT. What SETPIX's loop nest does to the array (rule R112): one OR in each of the words it names, every
other word as before, the canonical form kept. -/

namespace Sys2Proof.Machine

theorem readWord_orBit (m : Memory) (a : Nat) (b : Bool) (j i : Nat) :
    readWord (orBit m a b j) i =
      if i = a then readWord m a ||| ((BitVec.ofBool b).setWidth 32 <<< j) else readWord m i := by
  rw [orBit, readWord_writeWord]

theorem mem_planeColours {n : Nat} {p : Nat × Colour} : p ∈ planeColours n ↔ p.1 < n := by
  obtain ⟨z, c⟩ := p
  cases c <;> simp [planeColours, allColours]

theorem nodup_planeColours (n : Nat) : (planeColours n).Nodup := by
  unfold planeColours
  rw [List.nodup_flatMap]
  refine ⟨fun z _ => by simp [allColours], ?_⟩
  refine List.nodup_range.imp fun {z z'} hne => ?_
  simp [Function.onFun, List.disjoint_left, allColours, hne]

/-- A fold of ORs over distinct addresses: each address takes its own OR once, others keep their word. -/
theorem readWord_foldl_orBit {α : Type} (addr : α → Nat) (bit : α → Bool) (j : Nat) (l : List α)
    (hn : l.Nodup) (hi : ∀ p ∈ l, ∀ q ∈ l, addr p = addr q → p = q) (m : Memory) :
    (∀ p ∈ l, readWord (l.foldl (fun m p => orBit m (addr p) (bit p) j) m) (addr p) =
        readWord m (addr p) ||| ((BitVec.ofBool (bit p)).setWidth 32 <<< j))
      ∧ ∀ i, (∀ p ∈ l, addr p ≠ i) →
        readWord (l.foldl (fun m p => orBit m (addr p) (bit p) j) m) i = readWord m i := by
  induction l generalizing m with
  | nil => simp
  | cons x l ih =>
    have hx := List.nodup_cons.mp hn
    have ih := ih hx.2 (fun p hp q hq => hi p (by simp [hp]) q (by simp [hq]))
      (orBit m (addr x) (bit x) j)
    rw [List.foldl_cons]
    constructor
    · intro p hp
      rcases List.mem_cons.mp hp with rfl | hp
      · have hne : ∀ q ∈ l, addr q ≠ addr p := fun q hq he =>
          hx.1 (hi q (by simp [hq]) p (by simp) he ▸ hq)
        rw [ih.2 _ hne, readWord_orBit, if_pos rfl]
      · have hne : addr p ≠ addr x := fun he => hx.1 (hi p (by simp [hp]) x (by simp) he ▸ hp)
        rw [ih.1 p hp, readWord_orBit, if_neg hne]
    · intro i hne
      rw [ih.2 i fun p hp => hne p (by simp [hp]), readWord_orBit,
        if_neg (Ne.symm (hne x (by simp)))]

/-- The addresses of SETPIX's words are distinct (rule R112: "they touch 3N distinct words"). -/
theorem planeColours_addr_inj {n k y h : Nat} (hy : y < 32) (hh : h < 2) :
    ∀ p ∈ planeColours n, ∀ q ∈ planeColours n,
      wordOffset n k p.1 y (colourIdx p.2) h = wordOffset n k q.1 y (colourIdx q.2) h → p = q := by
  intro p hp q hq he
  have := wordOffset_inj (mem_planeColours.mp hp) hy (colourIdx_lt p.2) hh (mem_planeColours.mp hq) hy
    (colourIdx_lt q.2) hh he
  exact Prod.ext this.2.1 (colourIdx_injective this.2.2.2.1)

/-- The word of plane `z` and colour `c` after SETPIX's loop nest (rule R112). -/
theorem readWord_orPixel_hit {n k y h j : Nat} (hy : y < 32) (hh : h < 2) (q : Colour → BitVec 8)
    (m : Memory) {z : Nat} (hz : z < n) (c : Colour) :
    readWord (orPixel n k y h j q m) (wordOffset n k z y (colourIdx c) h) =
      readWord m (wordOffset n k z y (colourIdx c) h)
        ||| ((BitVec.ofBool ((q c).getLsbD z)).setWidth 32 <<< j) :=
  (readWord_foldl_orBit (fun p : Nat × Colour => wordOffset n k p.1 y (colourIdx p.2) h)
    (fun p => (q p.2).getLsbD p.1) j (planeColours n) (nodup_planeColours n)
    (planeColours_addr_inj hy hh) m).1 (z, c) (mem_planeColours.mpr hz)

/-- A word SETPIX's loop nest does not name keeps its value (rule R112). -/
theorem readWord_orPixel_miss {n k y h j : Nat} (hy : y < 32) (hh : h < 2) (q : Colour → BitVec 8)
    (m : Memory) {i : Nat} (hi : ∀ z < n, ∀ c : Colour, wordOffset n k z y (colourIdx c) h ≠ i) :
    readWord (orPixel n k y h j q m) i = readWord m i :=
  (readWord_foldl_orBit (fun p : Nat × Colour => wordOffset n k p.1 y (colourIdx p.2) h)
    (fun p => (q p.2).getLsbD p.1) j (planeColours n) (nodup_planeColours n)
    (planeColours_addr_inj hy hh) m).2 i fun p hp => hi p.1 (mem_planeColours.mp hp) p.2

/-- SETPIX's loop nest keeps the canonical form. -/
theorem memoryWf_orPixel {m : Memory} (h : memoryWf m = true) (n k y hf j : Nat) (q : Colour → BitVec 8) :
    memoryWf (orPixel n k y hf j q m) = true := by
  unfold orPixel
  generalize planeColours n = l
  induction l generalizing m with
  | nil => exact h
  | cons x l ih => exact ih (memoryWf_writeWord h _ _)

/-- SETPIX's loop nest stays inside the array. -/
theorem memoryWithin_orPixel {m : Memory} {n k y hf j : Nat} (h : memoryWithin (arraySize n) m = true)
    (hk : k < 2) (hy : y < 32) (hh : hf < 2) (q : Colour → BitVec 8) :
    memoryWithin (arraySize n) (orPixel n k y hf j q m) = true := by
  have key : ∀ l : List (Nat × Colour), (∀ p ∈ l, p.1 < n) → ∀ m : Memory,
      memoryWithin (arraySize n) m = true →
      memoryWithin (arraySize n) (l.foldl (fun m p =>
        orBit m (wordOffset n k p.1 y (colourIdx p.2) hf) ((q p.2).getLsbD p.1) j) m) = true := by
    intro l
    induction l with
    | nil => exact fun _ m hm => hm
    | cons x l ih =>
      exact fun hl m hm => ih (fun p hp => hl p (by simp [hp])) _
        (memoryWithin_writeWord hm (wordOffset_lt hk (hl x (by simp)) hy (colourIdx_lt x.2) hh) _)
  exact key _ (fun p hp => mem_planeColours.mp hp) m h

/-- The pixel position of a legal coordinate (rules R83, R111). -/
theorem coordLegal_iff (x y : Field) : coordLegal x y = true ↔ x.toNat < 64 ∧ y.toNat < 32 := by
  simp [coordLegal]

theorem pixelHalf_lt {x : Field} (h : x.toNat < 64) : pixelHalf x < 2 := by
  unfold pixelHalf; omega

theorem pixelBit_lt (x : Field) : pixelBit x < 32 := by
  unfold pixelBit; omega

end Sys2Proof.Machine
end

