-- ==== Sys2Proof/Laws/Decode.lean ====
section
/-! SUPPORT. The bits of a placed field, and what the decoder's guard answers. -/

namespace Sys2Proof

/-- A bit of a placed field (rule R85). -/
theorem getLsbD_place (f : Field) (lo i : Nat) :
    (place f lo).getLsbD i = (decide (i < 64) && (decide (lo ≤ i) && f.getLsbD (i - lo))) := by
  rw [place, BitVec.getLsbD_shiftLeft, BitVec.getLsbD_setWidth]
  by_cases h : i < 64 <;> by_cases h' : lo ≤ i <;> simp [h, h', Nat.lt_of_le_of_lt (Nat.sub_le i lo)]

/-- The guard passes exactly the command it is given, when the zero field is 0 (rule R88, test 2). -/
theorem guardZero_ok {w : Cmd} {lo len : Nat} {i j : Instr} :
    guardZero w lo len i = .ok j ↔ w.extractLsb' lo len = 0#len ∧ i = j := by
  unfold guardZero
  split <;> simp_all

/-- Every command word is decoded to a command or refused with a reason (rule R88). -/
theorem decode_cases (w : Cmd) : (∃ i, decode w = .ok i) ∨ ∃ r, decode w = .error r := by
  cases h : decode w with
  | ok i => exact .inl ⟨i, rfl⟩
  | error r => exact .inr ⟨r, rfl⟩

end Sys2Proof
end

