-- ==== Sys2Proof/Laws/GammaTable.lean ====
section
/-! SUPPORT. What a legal quantizer table gives (rule R101): its four properties in the form proofs use. -/

namespace Sys2Proof.Machine

theorem lutLegal_iff (cfg : Config) :
    lutLegal cfg = true ↔ cfg.lut.length = 256 ∧ (lutAt cfg 0#8).toNat = 0
      ∧ (lutAt cfg 255#8).toNat = maxLevel cfg.n ∧ nonDecreasing cfg.lut = true
      ∧ ∀ q ∈ cfg.lut, q.toNat ≤ maxLevel cfg.n := by
  simp [lutLegal, and_assoc]

/-- Neighbours in order are all in order. -/
theorem nonDecreasing_pairwise {l : List (BitVec 8)} (h : nonDecreasing l = true) :
    l.Pairwise (fun p q => p.toNat ≤ q.toNat) := by
  induction l with
  | nil => exact List.Pairwise.nil
  | cons a l ih =>
    cases l with
    | nil => simp
    | cons b l =>
      simp only [nonDecreasing, Bool.and_eq_true, decide_eq_true_iff] at h
      have hb := ih h.2
      refine List.pairwise_cons.mpr ⟨fun x hx => ?_, hb⟩
      rcases List.mem_cons.mp hx with rfl | hx
      · exact h.1
      · exact le_trans h.1 ((List.pairwise_cons.mp hb).1 x hx)

theorem lutAt_eq_getElem {cfg : Config} (h : cfg.lut.length = 256) (v : Field) :
    lutAt cfg v = cfg.lut[v.toNat]'(by have := v.isLt; omega) := by
  have hv : v.toNat < cfg.lut.length := by have := v.isLt; omega
  simp [lutAt, List.getD_eq_getElem?_getD, List.getElem?_eq_getElem hv]

/-- P_RANGE (rule R101). -/
theorem lutAt_le {cfg : Config} (h : lutLegal cfg = true) (v : Field) :
    (lutAt cfg v).toNat ≤ maxLevel cfg.n := by
  have h := (lutLegal_iff cfg).mp h
  rw [lutAt_eq_getElem h.1]
  exact h.2.2.2.2 _ (List.getElem_mem _)

/-- A plane bit at or above N is 0 (rules R101, R106). -/
theorem lutAt_getLsbD_of_le {cfg : Config} (h : lutLegal cfg = true) (v : Field) {z : Nat} (hz : cfg.n ≤ z) :
    (lutAt cfg v).getLsbD z = false := by
  have hle := lutAt_le h v
  have hlt : (lutAt cfg v).toNat < 2 ^ z :=
    lt_of_lt_of_le (by unfold maxLevel at hle; have := Nat.two_pow_pos cfg.n; omega)
      (Nat.pow_le_pow_right (by decide) hz)
  exact Nat.testBit_lt_two_pow hlt

end Sys2Proof.Machine
end

