-- ==== Sys2Proof/Laws/PerInstr.lean ====
section
/-! SUPPORT. Facts about every command as syntax, one lemma per constructor. -/

namespace Sys2Proof.Laws.TableRow

/-- The word of a command meets its own row of rule R86's table: `(w & mask) == match`. -/
def Statement (i : Instr) : Prop :=
  encode i &&& tableMask i = tableMatch i

theorem init : Statement .init := by
  unfold Statement; decide

theorem quant (v : Field) : Statement (.quant v) := by
  simp only [Statement, encode, tableMask, tableMatch, formatQ, place]
  ext i hi
  interval_cases i <;> simp

theorem setpix (x y r g b : Field) : Statement (.setpix x y r g b) := by
  simp only [Statement, encode, tableMask, tableMatch, formatP, place]
  ext i hi
  interval_cases i <;> simp

theorem clear : Statement .clear := by
  unfold Statement; decide

theorem swap : Statement .swap := by
  unfold Statement; decide

theorem refresh : Statement .refresh := by
  unfold Statement; decide

theorem rdw (role plane row colour half : Field) : Statement (.rdw role plane row colour half) := by
  simp only [Statement, encode, tableMask, tableMatch, formatW, place]
  ext i hi
  interval_cases i <;> simp

end Sys2Proof.Laws.TableRow
end

