-- ==== Sys2Proof/Laws/Pins.lean ====
section
/-! SUPPORT. The laws of masks: which bits a mask holds, that a legal pin map keeps signals apart, and the levels
after a set and a clear. -/

namespace Sys2Proof.Machine

theorem mem_allSignals (s : Signal) : s ∈ allSignals := by
  cases s <;> decide

theorem pinsLegal_iff (pm : PinMap) :
    pinsLegal pm = true ↔ (allSignals.map (pinOf pm)).Nodup ∧ ∀ s, pinOf pm s < 32 := by
  rw [pinsLegal, Bool.and_eq_true, decide_eq_true_iff, List.all_eq_true]
  refine and_congr Iff.rfl ⟨fun h s => ?_, fun h s _ => by simpa using h s⟩
  simpa using h s (mem_allSignals s)

/-- A legal pin map gives different signals different bits (rule R9). -/
theorem pinOf_injective {pm : PinMap} (h : pinsLegal pm = true) {s t : Signal}
    (hst : pinOf pm s = pinOf pm t) : s = t :=
  List.inj_on_of_nodup_map ((pinsLegal_iff pm).mp h).1 (mem_allSignals s) (mem_allSignals t) hst

/-- The bits of a mask are the offsets of its signals (rule R9). -/
theorem getLsbD_maskOf (pm : PinMap) (ss : List Signal) (i : Nat) :
    (maskOf pm ss).getLsbD i = decide (i < 32 ∧ ∃ s ∈ ss, pinOf pm s = i) := by
  induction ss with
  | nil => simp [maskOf]
  | cons s ss ih =>
    simp only [maskOf, BitVec.getLsbD_or, BitVec.getLsbD_twoPow, ih]
    by_cases hi : i < 32 <;> by_cases hs : pinOf pm s = i <;> simp [hi, hs]

/-- Under a legal pin map a mask holds a signal's bit exactly when it was made of it. -/
@[simp] theorem levelOf_maskOf {pm : PinMap} (h : pinsLegal pm = true) (ss : List Signal) (s : Signal) :
    levelOf pm (maskOf pm ss) s = decide (s ∈ ss) := by
  have hlt := ((pinsLegal_iff pm).mp h).2 s
  rw [levelOf, getLsbD_maskOf]
  refine decide_eq_decide.mpr ⟨fun ⟨_, t, ht, he⟩ => pinOf_injective h he ▸ ht, fun hs => ⟨hlt, s, hs, rfl⟩⟩

/-- The level of a signal after its port register was set (rule R30). -/
theorem levelOf_or {pm : PinMap} (out m : Word) (s : Signal) :
    levelOf pm (out ||| m) s = (levelOf pm out s || levelOf pm m s) := by
  simp [levelOf]

/-- The level of a signal after its port register was cleared (rule R30). -/
theorem levelOf_clear {pm : PinMap} (h : pinsLegal pm = true) (out m : Word) (s : Signal) :
    levelOf pm (out &&& ~~~m) s = (levelOf pm out s && !levelOf pm m s) := by
  have hlt := ((pinsLegal_iff pm).mp h).2 s
  simp [levelOf, hlt]

/-- A mask holds no bit outside that of all fourteen signals (rule R30). -/
theorem maskOf_sub (pm : PinMap) (ss : List Signal) :
    maskOf pm ss &&& ~~~(maskOf pm allSignals) = 0#32 := by
  refine BitVec.eq_of_getLsbD_eq fun i hi => ?_
  simp only [BitVec.getLsbD_and, BitVec.getLsbD_not, getLsbD_maskOf, hi, BitVec.getLsbD_zero]
  by_cases h : ∃ s ∈ ss, pinOf pm s = i
  · obtain ⟨s, -, hs⟩ := h
    have : ∃ t ∈ allSignals, pinOf pm t = i := ⟨s, mem_allSignals s, hs⟩
    simp [this]
  · simp [h]

end Sys2Proof.Machine
end

