-- ==== Sys2Proof/Laws/Ports.lean ====
section
/-! SUPPORT. The laws of event lists: they compose, and events whose masks hold only signal bits leave the other
bits of OUT and DIRV alone. -/

namespace Sys2Proof.Machine

@[simp] theorem outAfter_nil (out : Word) : outAfter out [] = out := rfl

@[simp] theorem outAfter_cons (out : Word) (e : Event) (es : List Event) :
    outAfter out (e :: es) = outAfter (driveOut out e) es := rfl

theorem outAfter_append (out : Word) (es es' : List Event) :
    outAfter out (es ++ es') = outAfter (outAfter out es) es' := by
  simp [outAfter]

@[simp] theorem dirAfter_nil (dirv : Word) : dirAfter dirv [] = dirv := rfl

@[simp] theorem dirAfter_cons (dirv : Word) (e : Event) (es : List Event) :
    dirAfter dirv (e :: es) = dirAfter (driveDir dirv e) es := rfl

theorem dirAfter_append (dirv : Word) (es es' : List Event) :
    dirAfter dirv (es ++ es') = dirAfter (dirAfter dirv es) es' := by
  simp [dirAfter]

theorem cyclesOf_append (es es' : List Event) : cyclesOf (es ++ es') = cyclesOf es + cyclesOf es' := by
  simp [cyclesOf]

/-- Bits that no mask of the events holds keep their value in OUT (rule R30). -/
theorem outAfter_getLsbD_of_unwritten {es : List Event} {i : Nat} (hi : i < 32)
    (h : ∀ e ∈ es, e.mask.getLsbD i = false) (out : Word) :
    (outAfter out es).getLsbD i = out.getLsbD i := by
  induction es generalizing out with
  | nil => rfl
  | cons e es ih =>
    have he := h e (by simp)
    rw [outAfter_cons, ih fun x hx => h x (by simp [hx])]
    cases e <;> simp_all [driveOut, Event.mask]

end Sys2Proof.Machine
end

