-- ==== Sys2Proof/Laws/Refresh.lean ====
section
/-! SUPPORT. What the loops of SHIFT_ROW and REFRESH do: they emit their strobes one after another and change
nothing else (rules R135, R141, R150, R151). -/

namespace Sys2Proof.Machine

/-- A position of the schedule (rules R27, R150). -/
theorem mem_schedule {n : Nat} {p : Slot} : p ∈ schedule n ↔ p.z < n ∧ p.k < 2 ^ p.z ∧ p.a < 16 := by
  simp only [schedule, List.mem_flatMap, List.mem_map, List.mem_range]
  constructor
  · rintro ⟨z, hz, k, hk, a, ha, rfl⟩; exact ⟨hz, hk, ha⟩
  · rintro ⟨hz, hk, ha⟩; exact ⟨p.z, hz, p.k, hk, p.a, ha, rfl⟩

/-- One more plane appends its repeats to the schedule (rule R157). -/
theorem schedule_succ (n : Nat) : schedule (n + 1) = schedule n ++
    (List.range (2 ^ n)).flatMap (fun k =>
      (List.range 16).map (fun a => { z := n, k := k, a := a })) := by
  simp [schedule, List.range_succ, List.flatMap_append]

/-- The turns of REFRESH's loop emit the strobes of the positions, in order (rules R150, R151). -/
theorem foldl_refreshTurn (bank : Nat → Nat → RowWords) (l : List Slot) (s : State) :
    l.foldl (refreshTurn bank) s = emit s (l.flatMap (slotStrobe s.cfg.pins bank)) := by
  induction l generalizing s with
  | nil => simp
  | cons p l ih =>
    rw [List.foldl_cons, ih, List.flatMap_cons, emit_append]
    rfl

theorem length_columnStep (pm : PinMap) (top bot : RowWords) (i : Nat) :
    (columnStep pm top bot i).length = 4 := rfl

theorem length_latchStep (pm : PinMap) (a : Nat) : (latchStep pm a).length = 4 := rfl

/-- What the events of a strobe can be (rules R133, R134). -/
theorem mem_strobe {pm : PinMap} {a : Nat} {top bot : RowWords} {ev : Event}
    (h : ev ∈ strobe pm a top bot) :
    (∃ i < 64, ev ∈ columnStep pm top bot i) ∨ ev ∈ latchStep pm a := by
  simpa [strobe, List.mem_append, List.mem_flatMap] using h

/-- Every event of a strobe writes a mask of signals, or settles (rule R30). -/
theorem strobe_event_mask {pm : PinMap} {a : Nat} {top bot : RowWords} {ev : Event}
    (h : ev ∈ strobe pm a top bot) : ∃ ss : List Signal, ev.mask = maskOf pm ss := by
  rcases mem_strobe h with ⟨i, -, h⟩ | h
  · simp only [columnStep, List.mem_cons, List.not_mem_nil, or_false] at h
    rcases h with rfl | rfl | rfl | rfl
    exacts [⟨_, rfl⟩, ⟨_, rfl⟩, ⟨[], rfl⟩, ⟨_, rfl⟩]
  · simp only [latchStep, List.mem_cons, List.not_mem_nil, or_false] at h
    rcases h with rfl | rfl | rfl | rfl
    exacts [⟨_, rfl⟩, ⟨_, rfl⟩, ⟨[], rfl⟩, ⟨_, rfl⟩]

/-- No event of a strobe writes the direction register (rule R130: reset only). -/
theorem strobe_dirAfter (pm : PinMap) (a : Nat) (top bot : RowWords) (dirv : Word) :
    dirAfter dirv (strobe pm a top bot) = dirv := by
  have key : ∀ es : List Event, (∀ ev ∈ es, ∀ d, driveDir d ev = d) → ∀ d, dirAfter d es = d := by
    intro es
    induction es with
    | nil => exact fun _ _ => rfl
    | cons e es ih => exact fun h d => by rw [dirAfter_cons, h e (by simp), ih fun x hx => h x (by simp [hx])]
  refine key _ (fun ev hev d => ?_) dirv
  rcases mem_strobe hev with ⟨i, -, h⟩ | h
  · simp only [columnStep, List.mem_cons, List.not_mem_nil, or_false] at h
    rcases h with rfl | rfl | rfl | rfl <;> rfl
  · simp only [latchStep, List.mem_cons, List.not_mem_nil, or_false] at h
    rcases h with rfl | rfl | rfl | rfl <;> rfl

/-- The columns of a line are the filtered colours of its row (rule R140). -/
theorem mem_dataSignals {top bot : RowWords} {i : Nat} {sig : Signal} :
    sig ∈ dataSignals top bot i ↔
      (∃ c, columnBit top c i = true ∧ upperLine c = sig)
        ∨ ∃ c, columnBit bot c i = true ∧ lowerLine c = sig := by
  have hall : ∀ c : Colour, c = .red ∨ c = .green ∨ c = .blue := by intro c; cases c <;> simp
  simp [dataSignals, allColours, hall]

/-- The signals of `data(top, bot, i)` are data lines (rule R140). -/
theorem dataLines_of_mem_dataSignals {top bot : RowWords} {i : Nat} {sig : Signal}
    (h : sig ∈ dataSignals top bot i) : sig ∈ dataLines := by
  rcases mem_dataSignals.mp h with ⟨c, -, rfl⟩ | ⟨c, -, rfl⟩ <;> cases c <;> decide

/-- An address line is in `addr(a)` exactly when the bit of `a` it carries is 1 (rule R137). -/
theorem mem_addrSignals {a : Nat} {sig : Signal} :
    sig ∈ addrSignals a ↔ ∃ k, addrBit sig = some k ∧ a.testBit k = true := by
  cases sig <;> simp [addrSignals, addrLines, carriesOne, addrBit]

/-- The levels a column step leaves: the data lines as the column's data, CLK low, the rest as before
(rule R133). -/
theorem levelOf_columnStep {pm : PinMap} (hp : pinsLegal pm = true) (top bot : RowWords) (i : Nat)
    (out : Word) (sig : Signal) :
    levelOf pm (outAfter out (columnStep pm top bot i)) sig =
      if sig ∈ dataLines then decide (sig ∈ dataSignals top bot i)
      else if sig = .clk then false
      else levelOf pm out sig := by
  simp only [columnStep, outAfter_cons, outAfter_nil, driveOut, levelOf_clear hp, levelOf_or,
    levelOf_maskOf hp]
  by_cases h : sig ∈ dataSignals top bot i
  · have hd := dataLines_of_mem_dataSignals h
    have hc : sig ≠ .clk := by rintro rfl; exact absurd hd (by decide)
    simp [h, hd, hc]
  · cases sig <;> simp [h, dataLines]

/-- The levels a latch step leaves: the address lines as `addr(a)`, LAT and OE low, the rest as before
(rule R134). -/
theorem levelOf_latchStep {pm : PinMap} (hp : pinsLegal pm = true) (a : Nat) (out : Word) (sig : Signal) :
    levelOf pm (outAfter out (latchStep pm a)) sig =
      if sig ∈ addrLines then decide (sig ∈ addrSignals a)
      else if sig = .lat ∨ sig = .oe then false
      else levelOf pm out sig := by
  simp only [latchStep, outAfter_cons, outAfter_nil, driveOut, levelOf_clear hp, levelOf_or,
    levelOf_maskOf hp]
  cases sig <;> simp [mem_addrSignals, addrBit, addrLines]

end Sys2Proof.Machine
end

