-- ==== Sys2Proof/Laws/Step.lean ====
section
/-! SUPPORT. What a command and a step can do, said once: exec always answers a next state, and that state is one
of these cases. Later proofs cite these and do not unfold the meanings. -/

namespace Sys2Proof.Machine

/-- REFRESH emits the sweep of the display bank, and nothing else (rule R151). -/
theorem execRefresh_eq (s : State) : execRefresh s = .next (emit s (displaySweep s)) := by
  rw [execRefresh, foldl_refreshTurn]
  rfl

/-- SETPIX at legal coordinates (rule R112). -/
theorem exec_setpix_legal {x y : Field} (h : coordLegal x y = true) (r g b : Field) (s : State) :
    exec (.setpix x y r g b) s = .next (setBp s
      (orPixel s.cfg.n (writeBank s) y.toNat (pixelHalf x) (pixelBit x)
        (fun c => lutAt s.cfg (channelOf r g b c)) s.bp)) :=
  if_pos h

/-- SETPIX out of range (rule R113). -/
theorem exec_setpix_fault {x y : Field} (h : coordLegal x y = false) (r g b : Field) (s : State) :
    exec (.setpix x y r g b) s = .next (raiseFault s .coordRange (encode (.setpix x y r g b))) :=
  if_neg (by simp [h])

/-- RDW with legal operands (rule R120). -/
theorem exec_rdw_legal {s : State} {role plane row colour half : Field}
    (h : indexLegal s.cfg.n role plane row colour half = true) :
    exec (.rdw role plane row colour half) s = .next (setResult s
      (bpWord s (roleBank s role) plane.toNat row.toNat colour.toNat half.toNat)) :=
  if_pos h

/-- RDW out of range (rule R120). -/
theorem exec_rdw_fault {s : State} {role plane row colour half : Field}
    (h : indexLegal s.cfg.n role plane row colour half = false) :
    exec (.rdw role plane row colour half) s =
      .next (raiseFault s .indexRange (encode (.rdw role plane row colour half))) :=
  if_neg (by simp [h])

/-- The legal ranges of RDW's operands (rule R84). -/
theorem indexLegal_iff (n : Nat) (role plane row colour half : Field) :
    indexLegal n role plane row colour half = true ↔
      role.toNat < 2 ∧ plane.toNat < n ∧ row.toNat < 32 ∧ colour.toNat < 3 ∧ half.toNat < 2 := by
  simp [indexLegal, and_assoc]

/-- Putting contents into the state twice over is putting them once. -/
theorem setBp_self (s : State) (m : Memory) : setBp s m = setBp s (setBp s m).bp := by
  rw [setBp_bp]

/-- Everything a command can do (rules R88, R103, R112, R116, R118, R120, R150, R170). -/
theorem exec_cases (i : Instr) (s : State) :
    (i = .init ∧ exec i s = .next (resetBlock s))
      ∨ (∃ v, exec i s = .next (setResult s v))
      ∨ (∃ m, exec i s = .next (setBp s m) ∧ i ≠ .init)
      ∨ (i = .swap ∧ exec i s = .next (setDisp s (1#1 - s.disp)))
      ∨ (i = .refresh ∧ exec i s = .next (emit s (displaySweep s)))
      ∨ (∃ k, exec i s = .next (raiseFault s k (encode i)) ∧ i.WellFormed s.cfg.n = false) := by
  cases i with
  | init => exact .inl ⟨rfl, rfl⟩
  | quant v => exact .inr (.inl ⟨_, rfl⟩)
  | setpix x y r g b =>
    by_cases h : coordLegal x y = true
    · exact .inr (.inr (.inl ⟨_, if_pos h, by simp⟩))
    · exact .inr (.inr (.inr (.inr (.inr ⟨_, if_neg h, by simpa [Instr.WellFormed] using h⟩))))
  | clear => exact .inr (.inr (.inl ⟨_, rfl, by simp⟩))
  | swap => exact .inr (.inr (.inr (.inl ⟨rfl, rfl⟩)))
  | refresh => exact .inr (.inr (.inr (.inr (.inl ⟨rfl, execRefresh_eq s⟩))))
  | rdw role plane row colour half =>
    by_cases h : indexLegal s.cfg.n role plane row colour half = true
    · exact .inr (.inl ⟨_, if_pos h⟩)
    · exact .inr (.inr (.inr (.inr (.inr ⟨_, if_neg h, by simpa [Instr.WellFormed] using h⟩))))

/-- A command's configuration is its state's (rule R37). -/
theorem exec_cfg {i : Instr} {s t : State} (h : exec i s = .next t) : t.cfg = s.cfg := by
  rcases exec_cases i s with ⟨-, e⟩ | ⟨v, e⟩ | ⟨m, e, -⟩ | ⟨-, e⟩ | ⟨-, e⟩ | ⟨k, e, -⟩ <;>
    · rw [e] at h
      injection h with h
      subst h
      simp

/-- Running a program one command after another. -/
theorem execAll_append (is js : List Instr) (s : State) :
    execAll (is ++ js) s =
      match execAll is s with
      | .next t => execAll js t
      | .fault r => .fault r
      | .refused r => .refused r := by
  induction is generalizing s with
  | nil => rfl
  | cons i is ih =>
    simp only [List.cons_append, execAll]
    cases exec i s with
    | next t => exact ih t
    | fault r => rfl
    | refused r => rfl

/-- A step takes the next input (rules R9, R12). -/
theorem step_cons {s : State} {input : Input} {rest : List Input} (hc : configLegal s.cfg = true)
    (hi : s.inputs = input :: rest) : step s = deliver input (setInputs s rest) := by
  simp [step, hc, hi]

theorem configLegal_iff (cfg : Config) :
    configLegal cfg = true ↔ (1 ≤ cfg.n ∧ cfg.n ≤ 8) ∧ lutLegal cfg = true ∧ pinsLegal cfg.pins = true
      ∧ 0 < cfg.settleMin ∧ 1 ≤ cfg.drawInterval := by
  simp [configLegal, and_assoc]

end Sys2Proof.Machine
end

