-- ==== Sys2Proof/Machine/Assembler.lean ====
section
/-! DEFINITION. The notation of commands and of host-side repetition (rules R90, R91). No meaning reads it. -/

namespace Sys2Proof.Machine

/-- The mnemonic of a command (rule R86). -/
def mnemonicOf : Instr → String
  | .init => "INIT"
  | .quant _ => "QUANT"
  | .setpix _ _ _ _ _ => "SETPIX"
  | .clear => "CLEAR"
  | .swap => "SWAP"
  | .refresh => "REFRESH"
  | .rdw _ _ _ _ _ => "RDW"

/-- A role operand: `D` = 0, `W` = 1, any other value in decimal (rule R90). -/
def roleText (v : Field) : String :=
  if v = 0#8 then "D" else if v = 1#8 then "W" else toString v.toNat

/-- A colour operand: `R` = 0, `G` = 1, `B` = 2, any other value in decimal (rule R90). -/
def colourText (v : Field) : String :=
  if v = 0#8 then "R" else if v = 1#8 then "G" else if v = 2#8 then "B" else toString v.toNat

/-- The operands of a command, in the order of rule R90. -/
def operandTexts : Instr → List String
  | .init => []
  | .quant v => [toString v.toNat]
  | .setpix x y r g b =>
    [toString x.toNat, toString y.toNat, toString r.toNat, toString g.toNat, toString b.toNat]
  | .clear => []
  | .swap => []
  | .refresh => []
  | .rdw role plane row colour half =>
    [roleText role, toString plane.toNat, toString row.toNat, colourText colour, toString half.toNat]

/-- One line of a program: `MNEMONIC operand, operand, ...` (rule R90). -/
def lineOf (i : Instr) : String :=
  match operandTexts i with
  | [] => mnemonicOf i
  | operands => mnemonicOf i ++ " " ++ String.intercalate ", " operands

/-- `REPEAT n` of a list of commands, a host-side loop (rule R91). -/
def repeatCommands (n : Nat) (is : List Instr) : List Instr :=
  (List.replicate n is).flatten

end Sys2Proof.Machine
end

