-- ==== Sys2Proof/Tests/Slice0.lean ====
section
/-! SUPPORT. The model's own tests: expected results come from spec/ (the vector or rule is named beside each),
and a witness for the hypotheses of every statement that has some. -/

namespace Sys2Proof.Tests

open Sys2Proof Sys2Proof.Machine

/-- The state an outcome goes on with, or the state given. -/
def stateOr (d : State) : Host.Outcome State Fault Refusal → State
  | .next t => t
  | .fault _ => d
  | .refused _ => d

/-- Whether an outcome is a next state. -/
def isNext : Host.Outcome State Fault Refusal → Bool
  | .next _ => true
  | .fault _ => false
  | .refused _ => false

/-- One step on the reset state with the host's command word `w`. -/
def after (w : Nat) : State :=
  stateOr State.reset (step (State.reset.withFetchWord 64 w))

/-- The reset state with some words of the array and a display select. -/
def small (m : Memory) (d : BitVec 1) : State :=
  { State.reset with bp := m, disp := d }

/-- One command on a state. -/
def run1 (i : Instr) (s : State) : State :=
  stateOr s (exec i s)

/-! ### Well-formedness: an ill-formed term for each check (rules R83, R84) -/

theorem test_wf_setpix_x : Instr.WellFormed 5 (.setpix 64#8 0#8 0#8 0#8 0#8) = false := by decide

theorem test_wf_setpix_y : Instr.WellFormed 5 (.setpix 0#8 32#8 0#8 0#8 0#8) = false := by decide

theorem test_wf_setpix_corner : Instr.WellFormed 5 (.setpix 63#8 31#8 255#8 255#8 255#8) = true := by decide

theorem test_wf_rdw_role : Instr.WellFormed 5 (.rdw 2#8 0#8 0#8 0#8 0#8) = false := by decide

theorem test_wf_rdw_plane : Instr.WellFormed 5 (.rdw 0#8 5#8 0#8 0#8 0#8) = false := by decide

theorem test_wf_rdw_row : Instr.WellFormed 5 (.rdw 0#8 0#8 32#8 0#8 0#8) = false := by decide

theorem test_wf_rdw_colour : Instr.WellFormed 5 (.rdw 0#8 0#8 0#8 3#8 0#8) = false := by decide

theorem test_wf_rdw_half : Instr.WellFormed 5 (.rdw 0#8 0#8 0#8 0#8 2#8) = false := by decide

theorem test_wf_rdw_corner : Instr.WellFormed 5 (.rdw 1#8 4#8 31#8 2#8 1#8) = true := by decide

/-! ### Decoding, one word per row (V13, V14), and the illegal words of V15 -/

theorem test_decode_init : decodeTableWord 64 0x0100000000000000 = some .init := by decide

theorem test_decode_quant : decodeTableWord 64 0x02000000000000C8 = some (.quant 200#8) := by decide

theorem test_decode_setpix :
    decodeTableWord 64 0x03200500000A141E = some (.setpix 32#8 5#8 10#8 20#8 30#8) := by decide

theorem test_decode_clear : decodeTableWord 64 0x0400000000000000 = some .clear := by decide

theorem test_decode_swap : decodeTableWord 64 0x0500000000000000 = some .swap := by decide

theorem test_decode_refresh : decodeTableWord 64 0x0600000000000000 = some .refresh := by decide

theorem test_decode_rdw :
    decodeTableWord 64 0x0701021102010000 = some (.rdw 1#8 2#8 17#8 2#8 1#8) := by decide

theorem test_decode_reserved :
    (decodeTableWord 64 0, decodeTableWord 64 0x0800000000000000, decodeTableWord 64 0xFFFFFFFFFFFFFFFF)
      = (none, none, none) := by decide

theorem test_decode_zero_fields :
    [0x0100000000000001, 0x0200000000000105, 0x0300000001FFFFFF, 0x0340000001000000, 0x0400000000000001,
      0x0580000000000000, 0x0600000000000002, 0x0700000000000001].map (decodeTableWord 64) =
      List.replicate 8 none := by decide

theorem test_encode_rdw : encode (.rdw 1#8 4#8 31#8 2#8 1#8) = 0x0701041F02010000#64 := by decide

theorem test_encode_setpix : encode (.setpix 33#8 2#8 255#8 128#8 0#8) = 0x0321020000FF8000#64 := by decide

/-- The notation of R92's `RDW W, 2, 17, B, 1`. -/
theorem test_line_rdw : lineOf (.rdw 1#8 2#8 17#8 2#8 1#8) = "RDW W, 2, 17, B, 1" := by decide +kernel

/-! ### The configuration -/

theorem test_reference_legal : configLegal referenceConfig = true := by decide +kernel

/-- V17: the tables of N = 2 and N = 8 at 148 and 254, and N = 5 at 128. -/
theorem test_gamma2_entries :
    (gamma2Entry 2 148, gamma2Entry 2 147, gamma2Entry 8 254, gamma2Entry 5 128) = (1, 0, 253, 7) := by
  decide

/-- R9, D30: CLK on the bit of R1 is refused. -/
theorem test_bad_pins_refused :
    step { State.reset with cfg := { referenceConfig with pins := { refmap with clk := 0 } } }
      = .refused .illegalConfig := by
  simp only [step]
  rw [if_neg (by decide +kernel)]

/-! ### Each command, one step from a small state -/

/-- V16: `QUANT 46` is the first input that gives 1. -/
theorem test_quant_46 : (after 0x020000000000002E).result = 1#32 := by decide +kernel

/-- V18: `QUANT 200` gives 19 and leaves STATUS. -/
theorem test_quant_200 :
    (readResult (after 0x02000000000000C8), readStatus (after 0x02000000000000C8)) = (0x13#32, 0x50#32) := by
  decide +kernel

/-- V24: `SETPIX 31,0,255,0,0` sets bit 31 of half 0 in plane 4 of bank 1, and nothing of half 1. -/
theorem test_setpix_31 :
    (bpWord (after 0x031F000000FF0000) 1 4 0 0 0, bpWord (after 0x031F000000FF0000) 1 4 0 0 1)
      = (0x80000000#32, 0#32) := by
  decide +kernel

/-- V15: `SETPIX 64,0,0,0,0` faults COORD_RANGE. -/
theorem test_setpix_range :
    (readStatus (after 0x0340000000000000), readFinfo (after 0x0340000000000000))
      = (0x55#32, 0x0340000000000000#64) := by
  decide +kernel

/-- V30: CLEAR clears bank 0 when bank 1 is displayed, and leaves bank 1 (offset 960 is its first word). -/
theorem test_clear_write_bank :
    (run1 .clear (small [(0, 4#32), (959, 1#32), (960, 2#32)] 1#1)).bp = [(960, 2#32)] := by decide

/-- V32: SWAP from reset gives STATUS 0x58. -/
theorem test_swap_status : readStatus (after 0x0500000000000000) = 0x58#32 := by decide +kernel

/-- V26: `RDW W,4,31,B,1` reads the last word of bank 1, offset 1919. -/
theorem test_rdw_last :
    (run1 (.rdw 1#8 4#8 31#8 2#8 1#8) (small [(1919, 0x80000000#32)] 0#1)).result = 0x80000000#32 := by decide

/-- V34: RDW with plane = N faults INDEX_RANGE. -/
theorem test_rdw_plane_n : readStatus (after 0x0700050000000000) = 0x57#32 := by decide +kernel

/-- V60: INIT clears the array, DISP and RESULT, and starts the trace afresh. -/
theorem test_init :
    (run1 .init { small [(7, 1#32)] 1#1 with result := 9#32, out := 0x3FF#32, fault := 1#1, fcause := 2#2 })
      = State.reset := by
  decide +kernel

/-- V15: a reserved word records ILLEGAL_COMMAND. -/
theorem test_illegal_word :
    (readStatus (after 0x0800000000000000), readFinfo (after 0x0800000000000000))
      = (0x53#32, 0x0800000000000000#64) := by
  decide +kernel

/-- V51: OUT after an all-zero sweep of N = 1 holds address 15 and nothing else. -/
theorem test_refresh_out :
    (run1 .refresh (State.resetWith (gamma2Config 1))).out = 0x3C0#32 := by decide +kernel

/-- REFRESH runs as the first command after reset. -/
theorem test_refresh_runs : isNext (step (State.reset.withFetchWord 64 0x0600000000000000)) = true := by
  decide +kernel

/-- The rows of V41: R and B lit in column 0 of the top row, G in column 0 of the bottom row. -/
def v41Top : RowWords := fun c h => if h = 0 ∧ c ≠ .green then 1#32 else 0#32

/-- The bottom row of V41. -/
def v41Bot : RowWords := fun c h => if h = 0 ∧ c = .green then 1#32 else 0#32

/-- V41: the first column step, the latch step and OUT afterwards. -/
theorem test_strobe_v41 :
    (strobe refmap 5 v41Top v41Bot).take 4 = [.clr 0x3F#32, .set 0x815#32, .settle 1, .clr 0x800#32]
      ∧ (strobe refmap 5 v41Top v41Bot).drop 256 =
        [.clr 0x7C0#32, .set 0x3140#32, .settle 2, .clr 0x3000#32]
      ∧ outAfter 0#32 (strobe refmap 5 v41Top v41Bot) = 0x140#32 := by
  decide +kernel

/-- R54, V71: the elements of pixels (31,15) and (63,31). -/
theorem test_bitmap_index : (bitmapIdx 31 15 0, bitmapIdx 63 31 2) = (2973, 6143) := by decide

/-- The observer of R144 after V41's strobe: column 0 of row 5 shows red and blue, of row 21 green. -/
theorem test_panel_v41 :
    ((panelShows (panelAfter refmap 0#32 ⟨List.replicate 64 0#6, [], 0#5, false⟩
        (strobe refmap 5 v41Top v41Bot)) 5).head?,
      (panelShows (panelAfter refmap 0#32 ⟨List.replicate 64 0#6, [], 0#5, false⟩
        (strobe refmap 5 v41Top v41Bot)) 21).head?) = (some 5#3, some 2#3) := by
  decide +kernel

/-! ### Witnesses: the hypotheses of each statement hold together somewhere -/

/-- The reset state with one input. -/
def given (i : Input) : State := setInputs State.reset [i]

theorem reset_configLegal : configLegal State.reset.cfg = true := test_reference_legal

theorem reset_lutLegal : lutLegal State.reset.cfg = true :=
  ((configLegal_iff _).mp test_reference_legal).2.1

theorem reset_pinsLegal : pinsLegal State.reset.cfg.pins = true :=
  ((configLegal_iff _).mp test_reference_legal).2.2.1

theorem witness_EncodeInvertsDecode : decode 0x0700040000000000#64 = .ok (.rdw 0#8 4#8 0#8 0#8 0#8) := by
  decide

/-- One word for each clause, every operand byte different from 0. -/
theorem witness_OperandsAreTheirBits :
    decode 0x02000000000000FF#64 = .ok (.quant 255#8)
      ∧ decode 0x03FF010000020304#64 = .ok (.setpix 255#8 1#8 2#8 3#8 4#8)
      ∧ decode 0x070102030405FFFF#64 = .error (.nonzeroZeroField 7#8)
      ∧ decode 0x07FF020304050000#64 = .ok (.rdw 255#8 2#8 3#8 4#8 5#8) := by decide

theorem witness_StepRunsDecodedCommand : configLegal (given (.command 0x0400000000000000#64)).cfg = true
    ∧ (given (.command 0x0400000000000000#64)).inputs = [.command 0x0400000000000000#64]
    ∧ decode 0x0400000000000000#64 = .ok .clear :=
  ⟨reset_configLegal, rfl, by decide⟩

/-- Both clauses: no fault recorded yet, and one recorded. -/
theorem witness_IllegalWordRecordsFault : configLegal (given (.command 0#64)).cfg = true
    ∧ (given (.command 0#64)).inputs = [.command 0#64] ∧ decode 0#64 = .error (.reservedOpcode 0#8)
    ∧ (given (.command 0#64)).fault = 0#1
    ∧ ({ given (.command 0#64) with fault := 1#1 } : State).fault = 1#1 :=
  ⟨reset_configLegal, rfl, by decide, rfl, rfl⟩

theorem witness_IdleBlockHoldsState : configLegal State.reset.cfg = true ∧ State.reset.inputs = [] :=
  ⟨reset_configLegal, rfl⟩

/-- Each of the four ways to be illegal. -/
theorem witness_IllegalConfigRefused :
    ({ referenceConfig with n := 0 } : Config).n < 1 ∧ 8 < ({ referenceConfig with n := 9 } : Config).n
      ∧ 32 ≤ pinOf { refmap with oe := 32 } .oe
      ∧ Signal.clk ≠ Signal.r1 ∧ pinOf { refmap with clk := 0 } .clk = pinOf { refmap with clk := 0 } .r1 := by
  decide

theorem witness_StepAnswersNextState : configLegal State.reset.cfg = true
    ∧ ∀ bitmap rest, State.reset.inputs = .draw bitmap :: rest → bitmapLegal bitmap = true :=
  ⟨reset_configLegal, fun _ _ h => by cases h⟩

theorem witness_PlatformLeavesSignals : configLegal (given (.platform 0xFFFFFFFF#32 0#32)).cfg = true
    ∧ (given (.platform 0xFFFFFFFF#32 0#32)).inputs = [.platform 0xFFFFFFFF#32 0#32]
    ∧ ∀ sig, pinOf State.reset.cfg.pins sig ≠ 31 :=
  ⟨reset_configLegal, rfl, fun sig => by cases sig <;> decide⟩

theorem witness_ResetLeavesSpecValues : referenceConfig.n < 16 ∧ pinsLegal referenceConfig.pins = true :=
  ⟨by decide, reset_pinsLegal⟩

/-- The reset state meets the invariant, and its step answers a next state. -/
theorem witness_StepKeepsInvariant : BlockInv State.reset ∧ isNext (step State.reset) = true := by
  refine ⟨⟨reset_configLegal, ⟨rfl, rfl⟩, ⟨fun _ => ⟨rfl, rfl⟩, fun h => absurd h (by decide)⟩, ?_, ?_⟩, ?_⟩
  · decide
  · intro sig; cases sig <;> decide
  · rw [show step State.reset = .next State.reset by simp [step, reset_configLegal, show
      State.reset.inputs = [] from rfl]]
    rfl

theorem witness_InitPerformsReset : pinsLegal State.reset.cfg.pins = true ∧ State.reset.cfg.n < 16
    ∧ ∀ sig, pinOf State.reset.cfg.pins sig ≠ 14 :=
  ⟨reset_pinsLegal, by decide, fun sig => by cases sig <;> decide⟩

theorem witness_StatusFields : ({ State.reset with fault := 1#1, fcause := 3#2, disp := 1#1 } : State).cfg.n < 16 :=
  by decide

theorem witness_QuantMeetsTableProperties : lutLegal State.reset.cfg = true ∧ (45#8).toNat ≤ (46#8).toNat :=
  ⟨reset_lutLegal, by decide⟩

/-- A table that the recipe fills for GAMMA = 1, N = 8 is the identity: entry v is v. -/
theorem witness_RecipeFillsLegalTable : (0 : ℝ) < 1
    ∧ 1 ≤ ({ gamma2Config 8 with lut := (List.range 256).map (BitVec.ofNat 8) } : Config).n
    ∧ ({ gamma2Config 8 with lut := (List.range 256).map (BitVec.ofNat 8) } : Config).lut.length = 256
    ∧ FilledByRecipe 1 { gamma2Config 8 with lut := (List.range 256).map (BitVec.ofNat 8) } := by
  refine ⟨one_pos, by decide, by simp, fun v => ?_⟩
  have hv : v.toNat < 256 := v.isLt
  have hl : (lutAt { gamma2Config 8 with lut := (List.range 256).map (BitVec.ofNat 8) } v).toNat = v.toNat := by
    simp [lutAt, hv]
  have hr : ((v.toNat : ℝ) / 255) ^ (1 : ℝ) * 255 * ((2 : ℝ) ^ (8 : ℕ) - 1) / 255 = (v.toNat : ℝ) := by
    rw [Real.rpow_one]; norm_num
  rw [hl]
  change v.toNat = min (maxLevel 8) ⌊((v.toNat : ℝ) / 255) ^ (1 : ℝ) * 255 * ((2 : ℝ) ^ (8 : ℕ) - 1) / 255⌋₊
  rw [hr, Nat.floor_natCast]
  exact (min_eq_right (by unfold maxLevel; omega)).symm

theorem witness_SquareRecipeIsInteger : 1 ≤ (gamma2Config 8).n ∧ (gamma2Config 8).n ≤ 8
    ∧ (gamma2Config 8).lut = gamma2Lut (gamma2Config 8).n :=
  ⟨by decide, by decide, rfl⟩

theorem witness_ReferenceThresholds : (31 : Nat) < 32 := by decide

/-- The last legal coordinates, and an offset outside SETPIX's words. -/
theorem witness_SetpixOrsPlaneBits : (63#8).toNat < 64 ∧ (31#8).toNat < 32
    ∧ ∀ z < State.reset.cfg.n, ∀ c : Colour,
      (0 : Nat) ≠ wordOffset State.reset.cfg.n (writeBank State.reset) z (31#8).toNat (colourIdx c)
        ((63#8).toNat / 32) := by
  refine ⟨by decide, by decide, fun z _ c => ?_⟩
  cases c <;> simp [wordOffset, colourIdx]

theorem witness_SetpixLeavesOtherLanes : (63#8).toNat < 64 ∧ (31#8).toNat < 32
    ∧ isNext (exec (.setpix 63#8 31#8 255#8 255#8 255#8) State.reset) = true ∧ 0 ≠ (63#8).toNat % 32 :=
  ⟨by decide, by decide, rfl, by decide⟩

/-- The first coordinates out of range, one at a time. -/
theorem witness_SetpixOutOfRangeFaults :
    configLegal (given (.command 0x0340000000000000#64)).cfg = true
      ∧ (given (.command 0x0340000000000000#64)).inputs = [.command 0x0340000000000000#64]
      ∧ decode 0x0340000000000000#64 = .ok (.setpix 64#8 0#8 0#8 0#8 0#8) ∧ 64 ≤ (64#8).toNat
      ∧ decode 0x0300200000010101#64 = .ok (.setpix 0#8 32#8 1#8 1#8 1#8) ∧ 32 ≤ (32#8).toNat :=
  ⟨reset_configLegal, rfl, by decide, by decide, by decide, by decide⟩

theorem witness_SetpixRoundTrip : lutLegal State.reset.cfg = true ∧ (32#8).toNat < 64 ∧ (16#8).toNat < 32
    ∧ ∀ c, pixValue State.reset (writeBank State.reset) (32#8).toNat (16#8).toNat c = 0 := by
  refine ⟨reset_lutLegal, by decide, by decide, fun c => ?_⟩
  cases c <;> decide

theorem witness_RepeatedSetpixAccumulates : lutLegal State.reset.cfg = true ∧ (5#8).toNat < 64
    ∧ (5#8).toNat < 32 ∧ ∀ c, pixValue State.reset (writeBank State.reset) (5#8).toNat (5#8).toNat c = 0 := by
  refine ⟨reset_lutLegal, by decide, by decide, fun c => ?_⟩
  cases c <;> decide

/-- A tuple in range at the top of every index, and an offset of the other bank. -/
theorem witness_ClearZeroesWriteBank : InRange State.reset.cfg.n 4 31 2 1
    ∧ ∀ z row c h, InRange State.reset.cfg.n z row c h →
      (0 : Nat) ≠ wordOffset State.reset.cfg.n (writeBank State.reset) z row c h := by
  refine ⟨⟨by decide, by decide, by decide, by decide⟩, fun z row c h _ => ?_⟩
  have : wordOffset State.reset.cfg.n (writeBank State.reset) z row c h =
      960 + (((z * 32 + row) * 3 + c) * 2 + h) := by
    simp only [wordOffset]
    rw [show writeBank State.reset = 1 from rfl, show State.reset.cfg.n = 5 from rfl]
    omega
  omega

/-- Legal operands at the top of every range. -/
theorem witness_RdwReturnsNamedWord : (1#8).toNat < 2 ∧ (4#8).toNat < State.reset.cfg.n
    ∧ (31#8).toNat < 32 ∧ (2#8).toNat < 3 ∧ (1#8).toNat < 2 := by decide

/-- Each operand at the first value out of its range. -/
theorem witness_RdwOutOfRangeFaults :
    configLegal (given (.command 0x0700050000000000#64)).cfg = true
      ∧ (given (.command 0x0700050000000000#64)).inputs = [.command 0x0700050000000000#64]
      ∧ decode 0x0700050000000000#64 = .ok (.rdw 0#8 5#8 0#8 0#8 0#8) ∧ State.reset.cfg.n ≤ (5#8).toNat
      ∧ decode 0x0702000000000000#64 = .ok (.rdw 2#8 0#8 0#8 0#8 0#8) ∧ 2 ≤ (2#8).toNat
      ∧ decode 0x0700002000000000#64 = .ok (.rdw 0#8 0#8 32#8 0#8 0#8) ∧ 32 ≤ (32#8).toNat
      ∧ decode 0x0700000003000000#64 = .ok (.rdw 0#8 0#8 0#8 3#8 0#8) ∧ 3 ≤ (3#8).toNat
      ∧ decode 0x0700000000020000#64 = .ok (.rdw 0#8 0#8 0#8 0#8 2#8) :=
  ⟨reset_configLegal, rfl, by decide, by decide, by decide, by decide, by decide, by decide, by decide,
    by decide, by decide⟩

theorem witness_DisplayBankIsolation : (Instr.setpix 0#8 0#8 255#8 255#8 255#8) ≠ .init
    ∧ isNext (exec (.setpix 0#8 0#8 255#8 255#8 255#8) State.reset) = true
    ∧ InRange State.reset.cfg.n 4 31 2 1
    ∧ (∀ x y r g b, Instr.swap ≠ .setpix x y r g b) ∧ Instr.swap ≠ .clear :=
  ⟨by decide, rfl, ⟨by decide, by decide, by decide, by decide⟩, by simp, by decide⟩

theorem witness_LayoutNumbersEveryWordOnce : (1 : Nat) < 2 ∧ InRange 5 4 31 2 1 ∧ 1919 < 2 * 5 * 192 :=
  ⟨by decide, ⟨by decide, by decide, by decide, by decide⟩, by decide⟩

theorem witness_StrobeCounts : pinsLegal refmap = true ∧ levelOf refmap 0x3C0#32 .clk = false
    ∧ levelOf refmap 0x3C0#32 .lat = false ∧ levelOf refmap 0x3C0#32 .oe = false :=
  ⟨reset_pinsLegal, by decide, by decide, by decide⟩

theorem witness_SweepCounts : pinsLegal refmap = true ∧ levelOf refmap 0#32 .clk = false ∧ 4 < 5 ∧ 15 < 16 :=
  ⟨reset_pinsLegal, by decide, by decide, by decide⟩

/-- The last strobe of N = 5 (V50) for both directions. -/
theorem witness_StrobeNumbering : 4 < 5 ∧ 15 < 2 ^ 4 ∧ 15 < 16 ∧ 495 < 16 * (2 ^ 5 - 1) := by decide

theorem witness_StrobeExitLevels : pinsLegal refmap = true ∧ 15 < 16
    ∧ Signal.e ∈ [Signal.clk, .lat, .oe, .e] ∧ addrBit .d = some 3 :=
  ⟨reset_pinsLegal, by decide, by decide, rfl⟩

theorem witness_LineENeverSet : 15 < 16 ∧ pinsLegal refmap = true
    ∧ Event.set (maskOf refmap (dataSignals v41Top v41Bot 0 ++ [.clk])) ∈
      sweep refmap 1 (fun _ row => if row < 16 then v41Top else v41Bot) := by
  refine ⟨by decide, reset_pinsLegal, ?_⟩
  refine List.mem_flatMap.mpr ⟨⟨0, 0, 0⟩, mem_schedule.mpr ⟨by decide, by decide, by decide⟩, ?_⟩
  exact List.mem_append_left _ (List.mem_flatMap.mpr ⟨0, by decide, by simp [columnStep]⟩)

theorem witness_BinaryWeightingLaw : pinsLegal State.reset.cfg.pins = true ∧ 63 < 64 ∧ 31 < 32 :=
  ⟨reset_pinsLegal, by decide, by decide⟩

theorem witness_RefreshRepeatsUntilSwap :
    ∀ i ∈ [Instr.setpix 0#8 0#8 255#8 255#8 255#8, .clear, .quant 1#8, .rdw 9#8 0#8 0#8 0#8 0#8, .refresh],
      changesDisplay i = false := by decide

/-- The two states differ in the write bank, the pins and the fault record. -/
theorem witness_SweepDependsOnDisplayBank :
    ({ small [(960, 5#32)] 0#1 with out := 0x3FF#32, fault := 1#1 } : State).cfg = State.reset.cfg
      ∧ ∀ z row c h, InRange State.reset.cfg.n z row c h →
        bpWord { small [(960, 5#32)] 0#1 with out := 0x3FF#32, fault := 1#1 }
          (displayBank { small [(960, 5#32)] 0#1 with out := 0x3FF#32, fault := 1#1 }) z row c h =
          bpWord State.reset (displayBank State.reset) z row c h := by
  refine ⟨rfl, fun z row c h hr => ?_⟩
  obtain ⟨hz, hrow, hc, hh⟩ := hr
  have hlt := (wordOffset_bank (k := 0) hz hrow hc hh).2
  have h5 : (0 + 1) * bankSize State.reset.cfg.n = 960 := rfl
  change readWord [(960, 5#32)] (wordOffset State.reset.cfg.n 0 z row c h) = 0#32
  rw [readWord_cons, if_neg (by simp only; omega)]
  rfl

theorem witness_PanelLatchesStrobe : pinsLegal refmap = true ∧ 15 < 16
    ∧ levelOf refmap 0xFFFFC7FF#32 .clk = false
    ∧ (⟨List.replicate 64 63#6, [], 31#5, true⟩ : Panel).sr.length = 64 :=
  ⟨reset_pinsLegal, by decide, by decide, by simp⟩

theorem witness_PlatformBitsUntouched : isNext (exec .init State.reset) = true
    ∧ ∀ sig, pinOf State.reset.cfg.pins sig ≠ 14 :=
  ⟨rfl, fun sig => by cases sig <;> decide⟩

theorem witness_TraceExplainsThePins : Instr.refresh ≠ .init ∧ isNext (exec .refresh State.reset) = true
    ∧ Instr.swap ≠ .init ∧ Instr.swap ≠ .refresh ∧ isNext (exec .swap State.reset) = true :=
  ⟨by decide, rfl, by decide, by decide, rfl⟩

theorem witness_FirstFaultIsKept : (Instr.setpix 64#8 0#8 0#8 0#8 0#8) ≠ .init
    ∧ ({ State.reset with fault := 1#1 } : State).fault = 1#1
    ∧ isNext (exec (.setpix 64#8 0#8 0#8 0#8 0#8) { State.reset with fault := 1#1 }) = true := by decide

theorem witness_FaultGatesNothing :
    SameButRecord State.reset { State.reset with fault := 1#1, fcause := 1#2, finfo := 7#64 }
      ∧ isNext (exec (.rdw 0#8 5#8 0#8 0#8 0#8) State.reset) = true
      ∧ isNext (exec (.rdw 0#8 5#8 0#8 0#8 0#8)
        { State.reset with fault := 1#1, fcause := 1#2, finfo := 7#64 }) = true :=
  ⟨rfl, by decide, by decide⟩

/-- Both directions: a command out of range and one in range. -/
theorem witness_FaultsExactlyOutOfRange : (Instr.rdw 0#8 0#8 0#8 3#8 0#8) ≠ .init ∧ State.reset.fault = 0#1
    ∧ (run1 (.rdw 0#8 0#8 0#8 3#8 0#8) State.reset).fault = 1#1
    ∧ (run1 (.rdw 0#8 0#8 0#8 2#8 0#8) State.reset).fault = 0#1 := by decide

theorem witness_DrawCommandCounts : (1 : Nat) ≤ 4 := by decide

/-- Each of the two ways a bitmap is invalid. -/
theorem witness_InvalidBitmapRefused : configLegal (given (.draw [256])).cfg = true
    ∧ (given (.draw [256])).inputs = [.draw [256]]
    ∧ ([256] : List Nat).length ≠ 6144 ∧ ∃ v ∈ List.replicate 6144 256, 255 < v :=
  ⟨reset_configLegal, rfl, by decide, 256, List.mem_replicate.mpr ⟨by decide, rfl⟩, by decide⟩

theorem bitmapLegal_replicate {v : Nat} (h : v ≤ 255) : bitmapLegal (List.replicate 6144 v) = true := by
  rw [bitmapLegal, Bool.and_eq_true, decide_eq_true_iff, List.all_eq_true]
  exact ⟨List.length_replicate, fun x hx => by rw [List.eq_of_mem_replicate hx]; exact decide_eq_true h⟩

theorem witness_DrawShowsBitmap : configLegal (given (.draw (List.replicate 6144 255))).cfg = true
    ∧ (given (.draw (List.replicate 6144 255))).inputs = [.draw (List.replicate 6144 255)]
    ∧ bitmapLegal (List.replicate 6144 255) = true
    ∧ InRange State.reset.cfg.n 4 31 2 1 :=
  ⟨reset_configLegal, rfl, bitmapLegal_replicate (by decide),
    ⟨by decide, by decide, by decide, by decide⟩⟩

theorem witness_DrawSweepsOldFrame : configLegal (given (.draw (List.replicate 6144 0))).cfg = true
    ∧ (given (.draw (List.replicate 6144 0))).inputs = [.draw (List.replicate 6144 0)]
    ∧ bitmapLegal (List.replicate 6144 0) = true :=
  ⟨reset_configLegal, rfl, bitmapLegal_replicate (by decide)⟩

end Sys2Proof.Tests
end

section
/-! SUPPORT. The step by what comes next (rules R9, R12, R88, R196): one equation per case of `step`, `runCommand`
and `startDraw`, and that every command and every input of a legal configuration answers a next state. With them
the statements of 00_scope.md are settled. -/

namespace Sys2Proof.Machine

/-- With no input left the block is idle (rules R196, R213). -/
theorem step_nil {s : State} (hc : configLegal s.cfg = true) (hi : s.inputs = []) : step s = .next s := by
  simp [step, hc, hi]

/-- An illegal configuration is refused, whatever comes next (rule R9). -/
theorem step_of_not_configLegal {s : State} (hc : ¬ configLegal s.cfg = true) :
    step s = .refused .illegalConfig :=
  if_neg hc

/-- A word that decodes runs its command (rule R88). -/
theorem runCommand_ok {w : Cmd} {i : Instr} (h : decode w = .ok i) (s : State) :
    runCommand w s = exec i s := by
  rw [runCommand, h]

/-- A word that is no command records the fault (rules R88, R89). -/
theorem runCommand_error {w : Cmd} {r : Illegal} (h : decode w = .error r) (s : State) :
    runCommand w s = .next (illegalCommand s w) := by
  rw [runCommand, h]

/-- A DRAW on a legal bitmap puts the commands of its expansion before the other inputs (rule R160). -/
theorem startDraw_legal {bitmap : List Nat} (h : bitmapLegal bitmap = true) (s : State) :
    startDraw bitmap s = .next (setInputs s
      ((drawProgram s.cfg.drawInterval bitmap).map (fun i => Input.command (encode i)) ++ s.inputs)) :=
  if_pos h

/-- Recording an illegal word leaves the configuration (rule R37). -/
@[simp] theorem illegalCommand_cfg (s : State) (w : Cmd) : (illegalCommand s w).cfg = s.cfg :=
  raiseFault_cfg s .illegalCommand w

/-- No command stops the machine: each answers a next state (rules R12, R180). -/
theorem exec_answers (i : Instr) (s : State) : ∃ t, exec i s = .next t := by
  rcases exec_cases i s with ⟨-, e⟩ | ⟨_, e⟩ | ⟨_, e, -⟩ | ⟨-, e⟩ | ⟨-, e⟩ | ⟨_, e, -⟩ <;> exact ⟨_, e⟩

/-- Every command word answers a next state with the same configuration, a command or not (rules R37, R88). -/
theorem runCommand_answers (w : Cmd) (s : State) : ∃ t, runCommand w s = .next t ∧ t.cfg = s.cfg := by
  rcases decode_cases w with ⟨i, hw⟩ | ⟨r, hw⟩
  · obtain ⟨t, ht⟩ := exec_answers i s
    exact ⟨t, (runCommand_ok hw s).trans ht, exec_cfg ht⟩
  · exact ⟨_, runCommand_error hw s, illegalCommand_cfg s w⟩

/-- Every input but a DRAW on an invalid bitmap answers a next state with the same configuration
(rules R12, R37, R161). -/
theorem deliver_answers {input : Input} (hd : ∀ bitmap, input = .draw bitmap → bitmapLegal bitmap = true)
    (s : State) : ∃ t, deliver input s = .next t ∧ t.cfg = s.cfg := by
  cases input with
  | command w => exact runCommand_answers w s
  | draw bitmap => exact ⟨_, startDraw_legal (hd bitmap rfl) s, setInputs_cfg s _⟩
  | reset => exact ⟨_, rfl, resetBlock_cfg s⟩
  | platform out dirv => exact ⟨_, rfl, platformWrite_cfg s out dirv⟩

/-- Settles O11, by the next input: none left, or one that `deliver` answers. -/
theorem stepAnswersNextState : Obligations.StepAnswersNextState := by
  intro s hc hd
  cases hi : s.inputs with
  | nil => exact ⟨s, step_nil hc hi, rfl⟩
  | cons input rest =>
    rw [step_cons hc hi]
    exact deliver_answers (fun bitmap h => hd bitmap rest (by rw [hi, h])) (setInputs s rest)

/-- Settles O7: the step delivers the word, and the word runs its command. -/
theorem stepRunsDecodedCommand : Obligations.StepRunsDecodedCommand := by
  intro s w rest i hc hi hw
  exact (step_cons hc hi).trans (runCommand_ok hw (setInputs s rest))

/-- Settles O10: a legal configuration excludes each of the four cases. -/
theorem illegalConfigRefused : Obligations.IllegalConfigRefused := by
  intro s hbad
  refine step_of_not_configLegal fun hc => ?_
  obtain ⟨⟨hlo, hhi⟩, -, hpins, -⟩ := (configLegal_iff s.cfg).mp hc
  rcases hbad with hn | hn | ⟨sig, hsig⟩ | ⟨sig, sig', hne, heq⟩
  · omega
  · omega
  · exact absurd (((pinsLegal_iff _).mp hpins).2 sig) (by omega)
  · exact hne (pinOf_injective hpins heq)

end Sys2Proof.Machine
end

section
/-! SUPPORT. The invariant of the block, kept by each operation and so by every step (rules R20, R32, R33, R38, R137,
R138), the port bits of no signal (rule R30), the reset state as a reset transition (rule R210), and STATUS as a
number (rule R32). With them the statements of 10_state.md are settled. -/

namespace Sys2Proof.Machine

/-! ### Masks and levels -/

/-- A mask holds no bit that is the offset of no signal (rule R30). -/
theorem getLsbD_maskOf_of_no_signal {pm : PinMap} {k : Nat} (h : ∀ sig, pinOf pm sig ≠ k)
    (ss : List Signal) : (maskOf pm ss).getLsbD k = false := by
  simp [getLsbD_maskOf, h]

theorem levelOf_and (pm : PinMap) (out m : Word) (sig : Signal) :
    levelOf pm (out &&& m) sig = (levelOf pm out sig && levelOf pm m sig) :=
  BitVec.getLsbD_and

/-- A value whose signal bits are those of `x` and whose other bits are those of `p` has the levels of `x`
(rule R30). -/
theorem levelOf_merge {pm : PinMap} (hp : pinsLegal pm = true) (x p : Word) (sig : Signal) :
    levelOf pm ((x &&& maskOf pm allSignals) ||| (p &&& ~~~(maskOf pm allSignals))) sig = levelOf pm x sig := by
  rw [levelOf_or, levelOf_and, levelOf_clear hp, levelOf_maskOf hp]
  simp [mem_allSignals]

/-- Off the signals such a value has the bits of `p` (rule R30). -/
theorem getLsbD_merge_of_no_signal {pm : PinMap} {k : Nat} (hk : k < 32) (h : ∀ sig, pinOf pm sig ≠ k)
    (x p : Word) :
    ((x &&& maskOf pm allSignals) ||| (p &&& ~~~(maskOf pm allSignals))).getLsbD k = p.getLsbD k := by
  rw [BitVec.getLsbD_or, BitVec.getLsbD_and, BitVec.getLsbD_and, BitVec.getLsbD_not,
    getLsbD_maskOf_of_no_signal h]
  simp [hk]

/-! ### The sweep -/

/-- What every list of a family of event lists keeps, their concatenation keeps. -/
theorem outAfter_flatMap_keeps {α : Type} {P : Word → Prop} {f : α → List Event} {l : List α}
    (hf : ∀ x ∈ l, ∀ out, P out → P (outAfter out (f x))) {out : Word} (h : P out) :
    P (outAfter out (l.flatMap f)) := by
  induction l generalizing out with
  | nil => exact h
  | cons x l ih =>
    rw [List.flatMap_cons, outAfter_append]
    exact ih (fun y hy => hf y (by simp [hy])) (hf x (by simp) out h)

/-- A sweep writes no direction register (rules R130, R151). -/
theorem dirAfter_sweep (pm : PinMap) (n : Nat) (bank : Nat → Nat → RowWords) (dirv : Word) :
    dirAfter dirv (sweep pm n bank) = dirv := by
  unfold sweep
  induction schedule n with
  | nil => rfl
  | cons p l ih => rw [List.flatMap_cons, dirAfter_append, slotStrobe, strobe_dirAfter, ih]

/-- Every event of a sweep writes a mask of signals, or settles (rules R30, R151). -/
theorem sweep_event_mask {pm : PinMap} {n : Nat} {bank : Nat → Nat → RowWords} {ev : Event}
    (h : ev ∈ sweep pm n bank) : ∃ ss : List Signal, ev.mask = maskOf pm ss := by
  obtain ⟨p, -, hp⟩ := List.mem_flatMap.mp h
  exact strobe_event_mask hp

/-- A sweep leaves the bits of OUT that are the offset of no signal (rules R30, R151). -/
theorem getLsbD_outAfter_sweep {pm : PinMap} {k : Nat} (h : ∀ sig, pinOf pm sig ≠ k) (n : Nat)
    (bank : Nat → Nat → RowWords) (out : Word) :
    (outAfter out (sweep pm n bank)).getLsbD k = out.getLsbD k := by
  by_cases hk : k < 32
  · refine outAfter_getLsbD_of_unwritten hk (fun ev hev => ?_) out
    obtain ⟨ss, hss⟩ := sweep_event_mask hev
    rw [hss, getLsbD_maskOf_of_no_signal h]
  · rw [BitVec.getLsbD_of_ge _ k (by omega), BitVec.getLsbD_of_ge _ k (by omega)]

/-- The lines that are low between strobes: CLK, LAT, OE and, as row addresses have four bits, E (rules R137,
R138). -/
def ControlLow (pm : PinMap) (out : Word) : Prop :=
  ∀ sig ∈ [Signal.clk, Signal.lat, Signal.oe, Signal.e], levelOf pm out sig = false

theorem pinsIdle_iff (s : State) :
    PinsIdle s ↔ ControlLow s.cfg.pins s.out ∧ ∀ sig, levelOf s.cfg.pins s.dirv sig = true :=
  Iff.rfl

/-- A column step drives data lines and CLK, and leaves CLK low (rule R133). -/
theorem controlLow_columnStep {pm : PinMap} (hp : pinsLegal pm = true) (top bot : RowWords) (i : Nat)
    {out : Word} (h : ControlLow pm out) : ControlLow pm (outAfter out (columnStep pm top bot i)) := by
  intro sig hsig
  have hdata : sig ∉ dataLines := by revert hsig; cases sig <;> decide
  rw [levelOf_columnStep hp, if_neg hdata, h sig hsig, ite_self]

/-- A row address has no bit for line E (rule R137). -/
theorem e_not_mem_addrSignals {a : Nat} (ha : a < 16) : Signal.e ∉ addrSignals a := by
  simpa [mem_addrSignals, addrBit] using Nat.testBit_lt_two_pow (show a < 2 ^ 4 from ha)

/-- A latch step leaves LAT and OE low and sets no E (rules R134, R137). -/
theorem controlLow_latchStep {pm : PinMap} (hp : pinsLegal pm = true) {a : Nat} (ha : a < 16)
    {out : Word} (h : ControlLow pm out) : ControlLow pm (outAfter out (latchStep pm a)) := by
  intro sig hsig
  rw [levelOf_latchStep hp]
  by_cases haddr : sig ∈ addrLines
  · have he : sig = .e := by revert hsig haddr; cases sig <;> decide
    rw [if_pos haddr, he, decide_eq_false (e_not_mem_addrSignals ha)]
  · rw [if_neg haddr, h sig hsig, ite_self]

/-- A strobe leaves its control lines low (rule R138). -/
theorem controlLow_strobe {pm : PinMap} (hp : pinsLegal pm = true) {a : Nat} (ha : a < 16)
    (top bot : RowWords) {out : Word} (h : ControlLow pm out) :
    ControlLow pm (outAfter out (strobe pm a top bot)) := by
  rw [strobe, outAfter_append]
  exact controlLow_latchStep hp ha
    (outAfter_flatMap_keeps (fun i _ _ => controlLow_columnStep hp top bot i) h)

/-- A sweep leaves the control lines low (rules R138, R151). -/
theorem controlLow_sweep {pm : PinMap} (hp : pinsLegal pm = true) (n : Nat) (bank : Nat → Nat → RowWords)
    {out : Word} (h : ControlLow pm out) : ControlLow pm (outAfter out (sweep pm n bank)) := by
  refine outAfter_flatMap_keeps (fun p hmem _ => ?_) h
  obtain ⟨-, -, ha⟩ := mem_schedule.mp hmem
  exact controlLow_strobe hp ha _ _

/-! ### The reset transition -/

/-- Reset drives every signal low (rule R210). -/
theorem levelOf_resetBlock_out {s : State} (hp : pinsLegal s.cfg.pins = true) (sig : Signal) :
    levelOf s.cfg.pins (resetBlock s).out sig = false := by
  simp [levelOf_clear hp, levelOf_maskOf hp, mem_allSignals]

/-- Reset makes every signal an output (rule R210). -/
theorem levelOf_resetBlock_dirv {s : State} (hp : pinsLegal s.cfg.pins = true) (sig : Signal) :
    levelOf s.cfg.pins (resetBlock s).dirv sig = true := by
  simp [levelOf_or, levelOf_maskOf hp, mem_allSignals]

/-- The state after reset is what the reset transition makes of itself, so what holds after every reset
transition holds of it (rule R210). -/
theorem resetBlock_resetWith (cfg : Config) : resetBlock (State.resetWith cfg) = State.resetWith cfg :=
  resetBlock_eq_resetWith (State.resetWith cfg) BitVec.zero_and BitVec.or_self rfl

/-! ### The invariant, operation by operation -/

theorem pinsLegal_of_configLegal {cfg : Config} (h : configLegal cfg = true) : pinsLegal cfg.pins = true := by
  obtain ⟨-, -, hp, -⟩ := (configLegal_iff cfg).mp h
  exact hp

/-- RESULT is outside the invariant. -/
@[simp] theorem blockInv_setResult (s : State) (v : BitVec 32) : BlockInv (setResult s v) ↔ BlockInv s :=
  Iff.rfl

/-- DISP is outside the invariant. -/
@[simp] theorem blockInv_setDisp (s : State) (d : BitVec 1) : BlockInv (setDisp s d) ↔ BlockInv s :=
  Iff.rfl

/-- The host's inputs are outside the invariant. -/
@[simp] theorem blockInv_setInputs (s : State) (is : List Input) : BlockInv (setInputs s is) ↔ BlockInv s :=
  Iff.rfl

/-- New contents of the array keep the invariant when they are canonical and within its size. -/
theorem blockInv_setBp {s : State} {m : Memory} (h : BlockInv s) (hwf : memoryWf m = true)
    (hin : memoryWithin (arraySize s.cfg.n) m = true) : BlockInv (setBp s m) := by
  obtain ⟨hc, -, hrecord, hpins⟩ := h
  exact ⟨hc, ⟨hwf, hin⟩, hrecord, hpins⟩

/-- Every cause has a code other than 0 (rule R181). -/
theorem causeCode_ne_zero (k : Cause) : causeCode k ≠ 0#2 := by
  cases k <;> decide

/-- A fault is recorded with its cause or, once FAULT is 1, changes nothing (rule R184). -/
theorem blockInv_raiseFault {s : State} (h : BlockInv s) (k : Cause) (w : Cmd) :
    BlockInv (raiseFault s k w) := by
  rcases BitVec.eq_zero_or_eq_one s.fault with h0 | h1
  · obtain ⟨hc, harray, -, hpins⟩ := h
    rw [raiseFault_first s k w h0]
    have hrecord : RecordOk { s with fault := 1#1, fcause := causeCode k, finfo := w } :=
      ⟨fun hf => absurd hf (by decide : 1#1 ≠ 0#1), fun _ => causeCode_ne_zero k⟩
    exact ⟨hc, harray, hrecord, hpins⟩
  · rwa [raiseFault_later s k w h1]

/-- The reset transition establishes the invariant from any state of a legal configuration (rule R210). -/
theorem blockInv_resetBlock {s : State} (hc : configLegal s.cfg = true) : BlockInv (resetBlock s) := by
  have hp := pinsLegal_of_configLegal hc
  have hrecord : RecordOk (resetBlock s) :=
    ⟨fun _ => ⟨rfl, rfl⟩, fun hf => absurd hf (by decide : 0#1 ≠ 1#1)⟩
  exact ⟨hc, ⟨memoryWf_nil, memoryWithin_nil _⟩, hrecord, fun sig _ => levelOf_resetBlock_out hp sig,
    levelOf_resetBlock_dirv hp⟩

/-- A sweep keeps the invariant: it drives OUT only, and leaves the control lines low. -/
theorem blockInv_emit_displaySweep {s : State} (h : BlockInv s) : BlockInv (emit s (displaySweep s)) := by
  obtain ⟨hc, harray, hrecord, hidle⟩ := h
  obtain ⟨hlow, hdir⟩ := (pinsIdle_iff s).mp hidle
  refine ⟨hc, harray, hrecord, controlLow_sweep (pinsLegal_of_configLegal hc) _ _ hlow, fun sig => ?_⟩
  rw [emit_dirv, displaySweep, dirAfter_sweep]
  exact hdir sig

/-- The platform has no signal's bits, so it keeps the invariant (rule R30). -/
theorem blockInv_platformWrite {s : State} (h : BlockInv s) (o d : Word) : BlockInv (platformWrite s o d) := by
  obtain ⟨hc, harray, hrecord, hlow, hdir⟩ := h
  have hp := pinsLegal_of_configLegal hc
  exact ⟨hc, harray, hrecord, fun sig hsig => (levelOf_merge hp s.out o sig).trans (hlow sig hsig),
    fun sig => (levelOf_merge hp s.dirv d sig).trans (hdir sig)⟩

/-- SETPIX at legal coordinates keeps the invariant (rule R112). -/
theorem blockInv_setBp_orPixel {s : State} (h : BlockInv s) {x y : Field} (hl : coordLegal x y = true) (j : Nat)
    (q : Colour → BitVec 8) :
    BlockInv (setBp s (orPixel s.cfg.n (writeBank s) y.toNat (pixelHalf x) j q s.bp)) := by
  have ⟨_, ⟨hwf, hin⟩, _⟩ := h
  obtain ⟨hx, hy⟩ := (coordLegal_iff x y).mp hl
  exact blockInv_setBp h (memoryWf_orPixel hwf _ _ _ _ _ _)
    (memoryWithin_orPixel hin (writeBank_lt s) hy (pixelHalf_lt hx) q)

/-- A zeroed range keeps the invariant (rule R116). -/
theorem blockInv_setBp_zeroRange {s : State} (h : BlockInv s) (lo len : Nat) :
    BlockInv (setBp s (zeroRange s.bp lo len)) := by
  have ⟨_, ⟨hwf, hin⟩, _⟩ := h
  exact blockInv_setBp h (memoryWf_zeroRange hwf lo len) (memoryWithin_zeroRange hin lo len)

/-! ### The invariant, step by step -/

/-- Every command keeps the invariant. -/
theorem blockInv_exec {i : Instr} {s t : State} (h : BlockInv s) (e : exec i s = .next t) : BlockInv t := by
  suffices hex : ∃ u, exec i s = .next u ∧ BlockInv u by
    obtain ⟨u, hu, hinv⟩ := hex
    exact Host.Outcome.next.inj (hu.symm.trans e) ▸ hinv
  cases i with
  | init => exact ⟨_, rfl, blockInv_resetBlock h.1⟩
  | quant v => exact ⟨_, rfl, (blockInv_setResult s _).mpr h⟩
  | setpix x y r g b =>
    cases hl : coordLegal x y with
    | true => exact ⟨_, exec_setpix_legal hl r g b s, blockInv_setBp_orPixel h hl _ _⟩
    | false => exact ⟨_, exec_setpix_fault hl r g b s, blockInv_raiseFault h _ _⟩
  | clear => exact ⟨_, rfl, blockInv_setBp_zeroRange h _ _⟩
  | swap => exact ⟨_, rfl, (blockInv_setDisp s _).mpr h⟩
  | refresh => exact ⟨_, execRefresh_eq s, blockInv_emit_displaySweep h⟩
  | rdw role plane row colour half =>
    cases hl : indexLegal s.cfg.n role plane row colour half with
    | true => exact ⟨_, exec_rdw_legal hl, (blockInv_setResult s _).mpr h⟩
    | false => exact ⟨_, exec_rdw_fault hl, blockInv_raiseFault h _ _⟩

/-- Every command word keeps the invariant, a command or not (rule R88). -/
theorem blockInv_runCommand {w : Cmd} {s t : State} (h : BlockInv s) (e : runCommand w s = .next t) :
    BlockInv t := by
  rcases decode_cases w with ⟨i, hw⟩ | ⟨r, hw⟩
  · exact blockInv_exec h ((runCommand_ok hw s).symm.trans e)
  · obtain rfl := Host.Outcome.next.inj ((runCommand_error hw s).symm.trans e)
    exact blockInv_raiseFault h _ _

/-- A DRAW that is not refused changes the host's inputs only (rules R160, R161). -/
theorem startDraw_next {bitmap : List Nat} {s t : State} (e : startDraw bitmap s = .next t) :
    ∃ is, t = setInputs s is := by
  by_cases hb : bitmapLegal bitmap = true
  · exact ⟨_, (Host.Outcome.next.inj ((startDraw_legal hb s).symm.trans e)).symm⟩
  · simp [startDraw, hb] at e

/-- Every input that is not refused keeps the invariant. -/
theorem blockInv_deliver {input : Input} {s t : State} (h : BlockInv s) (e : deliver input s = .next t) :
    BlockInv t := by
  cases input with
  | command w => exact blockInv_runCommand h e
  | draw bitmap =>
    obtain ⟨is, rfl⟩ := startDraw_next e
    exact (blockInv_setInputs s is).mpr h
  | reset => exact Host.Outcome.next.inj e ▸ blockInv_resetBlock h.1
  | platform o d => exact Host.Outcome.next.inj e ▸ blockInv_platformWrite h o d

/-- Settles O16, by the next input: none left, or one that `deliver` takes from the remaining ones. -/
theorem stepKeepsInvariant : Obligations.StepKeepsInvariant := by
  intro s t h e
  have hc : configLegal s.cfg = true := h.1
  cases hi : s.inputs with
  | nil => exact Host.Outcome.next.inj ((step_nil hc hi).symm.trans e) ▸ h
  | cons input rest =>
    exact blockInv_deliver ((blockInv_setInputs s rest).mpr h) ((step_cons hc hi).symm.trans e)

/-- The reference configuration meets rules R6, R7, R9, R10 and R11, its table of 256 entries included. -/
theorem referenceConfig_legal : configLegal referenceConfig = true := by decide +kernel

/-- Settles O15: the reset state is what the reset transition leaves. -/
theorem resetMeetsInvariant : Obligations.ResetMeetsInvariant := by
  have hreset : ∀ cfg : Config, configLegal cfg = true → BlockInv (State.resetWith cfg) :=
    fun cfg hc => resetBlock_resetWith cfg ▸ blockInv_resetBlock (s := State.resetWith cfg) hc
  exact ⟨hreset, hreset referenceConfig referenceConfig_legal⟩

/-! ### The platform's bits -/

/-- Settles O13: the step merges the platform's bits into OUT and DIRV around the signals' bits. -/
theorem platformLeavesSignals : Obligations.PlatformLeavesSignals := by
  intro s o d rest hc hi
  have hp := pinsLegal_of_configLegal hc
  refine ⟨platformWrite (setInputs s rest) o d, step_cons hc hi, rfl, fun sig => ?_, fun k hk hno => ?_⟩
  · exact ⟨levelOf_merge hp s.out o sig, levelOf_merge hp s.dirv d sig⟩
  · exact ⟨getLsbD_merge_of_no_signal hk hno s.out o, getLsbD_merge_of_no_signal hk hno s.dirv d⟩

/-- The reset transition leaves the port bits of no signal (rules R30, R210). -/
theorem getLsbD_resetBlock_of_no_signal {s : State} {k : Nat} (h : ∀ sig, pinOf s.cfg.pins sig ≠ k) :
    (resetBlock s).out.getLsbD k = s.out.getLsbD k ∧ (resetBlock s).dirv.getLsbD k = s.dirv.getLsbD k := by
  rw [resetBlock_out, resetBlock_dirv, BitVec.getLsbD_and, BitVec.getLsbD_not, BitVec.getLsbD_or,
    getLsbD_maskOf_of_no_signal h]
  by_cases hk : k < 32
  · simp [hk]
  · simp [BitVec.getLsbD_of_ge _ k (by omega : 32 ≤ k)]

/-- Settles O48, by what a command can do: only the reset transition and the sweep write the port. -/
theorem platformBitsUntouched : Obligations.PlatformBitsUntouched := by
  intro i s t k e hno
  rcases exec_cases i s with ⟨-, h⟩ | ⟨v, h⟩ | ⟨m, h, -⟩ | ⟨-, h⟩ | ⟨-, h⟩ | ⟨c, h, -⟩ <;>
    obtain rfl := Host.Outcome.next.inj (h.symm.trans e)
  · exact getLsbD_resetBlock_of_no_signal hno
  · exact ⟨rfl, rfl⟩
  · exact ⟨rfl, rfl⟩
  · exact ⟨rfl, rfl⟩
  · rw [emit_out, emit_dirv, displaySweep, getLsbD_outAfter_sweep hno, dirAfter_sweep]
    exact ⟨rfl, rfl⟩
  · rw [raiseFault_out, raiseFault_dirv]
    exact ⟨rfl, rfl⟩

/-! ### STATUS and the values after reset -/

/-- A field of `w` bits OR-ed in above a value is added to it, at its weight. -/
theorem toNat_or_field {w j : Nat} {x : BitVec 32} (hx : x.toNat < 2 ^ j) (f : BitVec w) (hw : w + j ≤ 32) :
    (x ||| f.setWidth 32 <<< j).toNat = x.toNat + 2 ^ j * f.toNat := by
  have hf : f.toNat <<< j < 2 ^ 32 :=
    (Nat.shiftLeft_lt f.isLt).trans_le (Nat.pow_le_pow_right (by decide) hw)
  rw [BitVec.toNat_or, BitVec.toNat_shiftLeft, BitVec.toNat_setWidth_of_le (by omega), Nat.mod_eq_of_lt hf,
    Nat.or_comm, ← Nat.shiftLeft_add_eq_or_of_lt hx, Nat.shiftLeft_eq, Nat.mul_comm, Nat.add_comm]

/-- Settles O18: each field of STATUS lies above the ones before it, so OR-ing them adds them. -/
theorem statusFields : Obligations.StatusFields := by
  intro s hn
  have hfault := s.fault.isLt
  have hcause := s.fcause.isLt
  have hdisp := s.disp.isLt
  have h0 : (s.fault.setWidth 32).toNat = s.fault.toNat := BitVec.toNat_setWidth_of_le (by decide)
  have h1 := toNat_or_field (j := 1) (h0.trans_lt hfault) s.fcause (by decide)
  have h3 := toNat_or_field (j := 3) (h1.trans_lt (by omega)) s.disp (by decide)
  have h4 := toNat_or_field (j := 4) (h3.trans_lt (by omega)) (BitVec.ofNat 4 s.cfg.n) (by decide)
  have hN : (BitVec.ofNat 4 s.cfg.n).toNat = s.cfg.n := Nat.mod_eq_of_lt hn
  rw [readStatus, statusWord, h4, h3, h1, h0, hN]
  rfl

/-- Settles O14: the reset state is what the reset transition leaves, and STATUS is the sum of its fields. -/
theorem resetLeavesSpecValues : Obligations.ResetLeavesSpecValues := by
  intro cfg hn hp
  have hstatus : readStatus (State.resetWith cfg) = BitVec.ofNat 32 (16 * cfg.n) := by
    refine BitVec.eq_of_toNat_eq ((statusFields (State.resetWith cfg) hn).trans ?_)
    rw [BitVec.toNat_ofNat, Nat.mod_eq_of_lt (by omega)]
    simp [State.resetWith]
  refine ⟨fun _ _ _ _ _ => rfl, rfl, rfl, rfl, fun sig => ?_, fun sig => ?_, rfl, hstatus, rfl, rfl⟩
  · exact resetBlock_resetWith cfg ▸ levelOf_resetBlock_out (s := State.resetWith cfg) hp sig
  · exact resetBlock_resetWith cfg ▸ levelOf_resetBlock_dirv (s := State.resetWith cfg) hp sig

end Sys2Proof.Machine
end

section
/-! SUPPORT. The two banks of the array (rules R50, R51, R55, R63): which commands change its words, the tuple an
offset numbers, and the roles of the banks after a SWAP. With them the statements of 20_memory.md are settled. -/

namespace Sys2Proof.Machine

/-! ### The words of the other bank -/

/-- SETPIX's loop nest names no word of another bank (rules R51, R112). -/
theorem readWord_orPixel_other_bank {n k k' z row c h y hf : Nat} (hne : k ≠ k') (hr : InRange n z row c h)
    (hy : y < 32) (hh : hf < 2) (j : Nat) (q : Colour → BitVec 8) (m : Memory) :
    readWord (orPixel n k' y hf j q m) (wordOffset n k z row c h) = readWord m (wordOffset n k z row c h) := by
  obtain ⟨hz, hrow, hc, hhalf⟩ := hr
  refine readWord_orPixel_miss hy hh q m fun z' hz' c' he => ?_
  obtain ⟨hk, -⟩ := wordOffset_inj hz' hy (colourIdx_lt c') hh hz hrow hc hhalf he
  exact hne hk.symm

/-- A zeroed bank leaves the words of another bank (rules R51, R116). -/
theorem readWord_zeroRange_other_bank {n k k' z row c h : Nat} (hne : k ≠ k') (hr : InRange n z row c h)
    (m : Memory) :
    readWord (zeroRange m (k' * bankSize n) (bankSize n)) (wordOffset n k z row c h) =
      readWord m (wordOffset n k z row c h) := by
  obtain ⟨hz, hrow, hc, hhalf⟩ := hr
  obtain ⟨hlo, hhi⟩ := wordOffset_bank (k := k) hz hrow hc hhalf
  have hout : ¬ (k' * bankSize n ≤ wordOffset n k z row c h
      ∧ wordOffset n k z row c h < k' * bankSize n + bankSize n) := by
    rintro ⟨hlo', hhi'⟩
    rcases Nat.lt_or_gt_of_ne hne with hlt | hgt
    · have hle : (k + 1) * bankSize n ≤ k' * bankSize n := Nat.mul_le_mul_right _ hlt
      omega
    · have hle : (k' + 1) * bankSize n ≤ k * bankSize n := Nat.mul_le_mul_right _ hgt
      rw [Nat.succ_mul] at hle
      omega
  rw [readWord_zeroRange, if_neg hout]

/-! ### What a command does to the array -/

/-- Only INIT, SETPIX and CLEAR change the array (rule R51). -/
theorem exec_bp {i : Instr} {s t : State} (hinit : i ≠ .init) (hset : ∀ x y r g b, i ≠ .setpix x y r g b)
    (hclear : i ≠ .clear) (e : exec i s = .next t) : t.bp = s.bp := by
  cases i with
  | init => exact absurd rfl hinit
  | quant v => exact Host.Outcome.next.inj e ▸ setResult_bp s _
  | setpix x y r g b => exact absurd rfl (hset x y r g b)
  | clear => exact absurd rfl hclear
  | swap => exact Host.Outcome.next.inj e ▸ setDisp_bp s _
  | refresh => exact Host.Outcome.next.inj ((execRefresh_eq s).symm.trans e) ▸ emit_bp s _
  | rdw role plane row colour half =>
    cases hl : indexLegal s.cfg.n role plane row colour half with
    | true => exact Host.Outcome.next.inj ((exec_rdw_legal hl).symm.trans e) ▸ setResult_bp s _
    | false => exact Host.Outcome.next.inj ((exec_rdw_fault hl).symm.trans e) ▸ raiseFault_bp s _ _

/-- States of one configuration with one array have the same words. -/
theorem bpWord_of_bp_eq {s t : State} (hcfg : t.cfg = s.cfg) (hbp : t.bp = s.bp) (k z row c h : Nat) :
    bpWord t k z row c h = bpWord s k z row c h := by
  rw [bpWord, bpWord, hcfg, hbp]

/-- A word of the state after the array takes new contents is read from these contents. -/
theorem bpWord_setBp (s : State) (m : Memory) (k z row c h : Nat) :
    bpWord (setBp s m) k z row c h = readWord m (wordOffset s.cfg.n k z row c h) := rfl

/-- SETPIX leaves the words of the display bank, in range or not (rules R51, R113). -/
theorem exec_setpix_display_word {s t : State} {x y r g b : Field} (e : exec (.setpix x y r g b) s = .next t)
    {z row c h : Nat} (hr : InRange s.cfg.n z row c h) :
    bpWord t (displayBank s) z row c h = bpWord s (displayBank s) z row c h := by
  cases hl : coordLegal x y with
  | true =>
    obtain rfl := Host.Outcome.next.inj ((exec_setpix_legal hl r g b s).symm.trans e)
    obtain ⟨hx, hy⟩ := (coordLegal_iff x y).mp hl
    rw [bpWord_setBp]
    exact readWord_orPixel_other_bank (displayBank_ne_writeBank s) hr hy (pixelHalf_lt hx) _ _ _
  | false =>
    obtain rfl := Host.Outcome.next.inj ((exec_setpix_fault hl r g b s).symm.trans e)
    exact bpWord_of_bp_eq (raiseFault_cfg s _ _) (raiseFault_bp s _ _) _ _ _ _ _

/-- CLEAR leaves the words of the display bank (rules R51, R116). -/
theorem exec_clear_display_word {s t : State} (e : exec .clear s = .next t) {z row c h : Nat}
    (hr : InRange s.cfg.n z row c h) :
    bpWord t (displayBank s) z row c h = bpWord s (displayBank s) z row c h := by
  obtain rfl := Host.Outcome.next.inj e
  rw [bpWord_setBp]
  exact readWord_zeroRange_other_bank (displayBank_ne_writeBank s) hr s.bp

/-- Settles O34: SETPIX and CLEAR write in the write bank, and no other command but INIT writes in the array. -/
theorem displayBankIsolation : Obligations.DisplayBankIsolation := by
  intro i s t hinit e
  refine ⟨fun z row c h hr => ?_, fun hset hclear => exec_bp hinit hset hclear e⟩
  by_cases hset : ∃ x y r g b, i = .setpix x y r g b
  · obtain ⟨x, y, r, g, b, rfl⟩ := hset
    exact exec_setpix_display_word e hr
  by_cases hclear : i = .clear
  · subst hclear
    exact exec_clear_display_word e hr
  · have hbp := exec_bp hinit (fun x y r g b hi => hset ⟨x, y, r, g, b, hi⟩) hclear e
    exact bpWord_of_bp_eq (exec_cfg e) hbp _ _ _ _ _

/-! ### The tuple an offset numbers -/

/-- Every offset of the array is that of a tuple in range: its bank by division, the rest by its mixed-radix
digits (rule R55). -/
theorem exists_wordOffset_eq {n o : Nat} (ho : o < arraySize n) :
    ∃ k z row c h, k < 2 ∧ InRange n z row c h ∧ wordOffset n k z row c h = o := by
  unfold arraySize bankSize at ho
  have hpos : 0 < n * 192 := by omega
  have hk : o / (n * 192) < 2 := (Nat.div_lt_iff_lt_mul hpos).mpr ho
  have hrest := Nat.mod_lt o hpos
  have hsplit := Nat.div_add_mod' o (n * 192)
  generalize o % (n * 192) = rest at hrest hsplit
  refine ⟨o / (n * 192), rest / 192, rest / 6 % 32, rest / 2 % 3, rest % 2, hk, ⟨?_, ?_, ?_, ?_⟩, ?_⟩
  · omega
  · omega
  · omega
  · omega
  · unfold wordOffset
    omega

/-- Settles O35: the offsets of tuples in range are within the array, each offset of it is that of a tuple, and
tuples with one offset are one. -/
theorem layoutNumbersEveryWordOnce : Obligations.LayoutNumbersEveryWordOnce := by
  intro n
  have hsize : arraySize n = 2 * n * 192 := (Nat.mul_assoc 2 n 192).symm
  rw [← hsize]
  refine ⟨fun k z row c h hk ⟨hz, hrow, hc, hh⟩ => wordOffset_lt hk hz hrow hc hh, fun o ho => ?_⟩
  obtain ⟨k, z, row, c, h, hk, hr, he⟩ := exists_wordOffset_eq ho
  refine ⟨(k, z, row, c, h), ⟨hk, hr, he⟩, ?_⟩
  rintro ⟨k', z', row', c', h'⟩ ⟨-, ⟨hz', hrow', hc', hh'⟩, he'⟩
  obtain ⟨hz, hrow, hc, hh⟩ := hr
  obtain ⟨rfl, rfl, rfl, rfl, rfl⟩ :=
    wordOffset_inj hz' hrow' hc' hh' hz hrow hc hh (he'.trans he.symm)
  rfl

/-! ### The roles of the banks after a SWAP -/

/-- After a SWAP the bank on display is the one that was written (rule R118). -/
theorem displayBank_swap (s : State) : displayBank (setDisp s (1#1 - s.disp)) = writeBank s := by
  rw [displayBank, writeBank, setDisp_disp]
  rcases BitVec.eq_zero_or_eq_one s.disp with h | h <;> rw [h] <;> rfl

/-- The words of a bank do not depend on the role it has. -/
@[simp] theorem bankWords_setDisp (s : State) (d : BitVec 1) : bankWords (setDisp s d) = bankWords s := rfl

/-- Settles O46: REFRESH sweeps the bank on display, which after the SWAP is the former write bank. -/
theorem swapPublishesWriteBank : Obligations.SwapPublishesWriteBank := by
  intro s
  refine ⟨setDisp s (1#1 - s.disp), _, rfl, execRefresh_eq _, ?_⟩
  rw [emit_trace, displaySweep, displayBank_swap, bankWords_setDisp, setDisp_trace, setDisp_cfg]

/-! ### The trace and the latches -/

/-- Settles O49, by what a command can do: REFRESH emits its sweep, and the other commands but INIT leave the
trace and the latches. -/
theorem traceExplainsThePins : Obligations.TraceExplainsThePins := by
  intro i s t hinit e
  rcases exec_cases i s with ⟨hi, -⟩ | ⟨v, h⟩ | ⟨m, h, -⟩ | ⟨-, h⟩ | ⟨hi, h⟩ | ⟨k, h, -⟩
  case inl => exact absurd hi hinit
  all_goals obtain rfl := Host.Outcome.next.inj (h.symm.trans e)
  · exact ⟨[], by simp⟩
  · exact ⟨[], by simp⟩
  · exact ⟨[], by simp⟩
  · exact ⟨displaySweep s, rfl, rfl, rfl, fun hne => absurd hi hne⟩
  · exact ⟨[], by simp⟩

end Sys2Proof.Machine
end

section
/-! SUPPORT. The three kinds of field of each command's format: its opcode, its zero field, its operands (rules R80
to R86). `decode` reads them (`decode_ok_iff`), `encode` places them (`opcodeOf_encode`, `zeroField_encode`,
`readOperands_encode`), and no bit of a word is in none of them (`cmd_ext`). With them the statements of
30_encoding.md are settled. -/

namespace Sys2Proof

/-! ### The fields of a format -/

/-- The opcode of a command (rule R86). -/
def Instr.opcode : Instr → Field
  | .init => 0x01#8
  | .quant _ => 0x02#8
  | .setpix _ _ _ _ _ => 0x03#8
  | .clear => 0x04#8
  | .swap => 0x05#8
  | .refresh => 0x06#8
  | .rdw _ _ _ _ _ => 0x07#8

/-- The lowest bit of the zero field of a command's format (rules R81 to R84). -/
def Instr.zeroLo : Instr → Nat
  | .quant _ => 8
  | .setpix _ _ _ _ _ => 24
  | .init | .clear | .swap | .refresh | .rdw _ _ _ _ _ => 0

/-- The length of the zero field of a command's format (rules R81 to R84). -/
def Instr.zeroLen : Instr → Nat
  | .init | .clear | .swap | .refresh => 56
  | .quant _ => 48
  | .setpix _ _ _ _ _ | .rdw _ _ _ _ _ => 16

/-- The zero field of a command's format, read from a word. -/
def zeroField (w : Cmd) (i : Instr) : BitVec i.zeroLen :=
  w.extractLsb' i.zeroLo i.zeroLen

/-- The command of the same row, with the operands read from a word (rules R82 to R85). -/
def readOperands (w : Cmd) : Instr → Instr
  | .init => .init
  | .quant _ => .quant (fieldAt w 0)
  | .setpix _ _ _ _ _ =>
    .setpix (fieldAt w 48) (fieldAt w 40) (fieldAt w 16) (fieldAt w 8) (fieldAt w 0)
  | .clear => .clear
  | .swap => .swap
  | .refresh => .refresh
  | .rdw _ _ _ _ _ =>
    .rdw (fieldAt w 48) (fieldAt w 40) (fieldAt w 32) (fieldAt w 24) (fieldAt w 16)

@[simp] theorem opcode_readOperands (w : Cmd) (i : Instr) : (readOperands w i).opcode = i.opcode := by
  cases i <;> rfl

/-- The opcode is an eight-bit field like the others, at bit 56. -/
theorem opcodeOf_eq_fieldAt (w : Cmd) : opcodeOf w = fieldAt w 56 := rfl

theorem toNat_fieldAt (w : Cmd) (lo : Nat) : (fieldAt w lo).toNat = w.toNat / 2 ^ lo % 256 := by
  rw [fieldAt, BitVec.extractLsb'_toNat, Nat.shiftRight_eq_div_pow]

theorem toNat_opcodeOf (w : Cmd) : (opcodeOf w).toNat = w.toNat / 2 ^ 56 := by
  rw [opcodeOf_eq_fieldAt, toNat_fieldAt]
  have := w.isLt
  omega

theorem extractLsb'_eq_zero_iff (w : Cmd) (lo len : Nat) :
    w.extractLsb' lo len = 0#len ↔ w.toNat / 2 ^ lo % 2 ^ len = 0 := by
  rw [← BitVec.toNat_inj, BitVec.extractLsb'_toNat, Nat.shiftRight_eq_div_pow, BitVec.toNat_ofNat,
    Nat.zero_mod]

/-! ### A word is its fields -/

/-- Words with the same field at a position have the same bits there. -/
theorem getLsbD_eq_of_extractLsb'_eq {w w' : Cmd} {lo len : Nat}
    (h : w.extractLsb' lo len = w'.extractLsb' lo len) {k : Nat} (hlo : lo ≤ k) (hhi : k < lo + len) :
    w.getLsbD k = w'.getLsbD k := by
  have hbit := congrArg (fun v => v.getLsbD (k - lo)) h
  simpa [show k - lo < len by omega, show lo + (k - lo) = k by omega] using hbit

/-- Every bit of a word is in its opcode, in its format's zero field or in an operand: words that agree on the
three are one. -/
theorem cmd_ext {w w' : Cmd} (i : Instr) (hop : opcodeOf w = opcodeOf w')
    (hzero : zeroField w i = zeroField w' i) (hargs : readOperands w i = readOperands w' i) : w = w' := by
  apply BitVec.eq_of_getLsbD_eq
  intro k hk
  by_cases hk56 : 56 ≤ k
  · exact getLsbD_eq_of_extractLsb'_eq hop hk56 hk
  have hz : i.zeroLo ≤ k → k < i.zeroLo + i.zeroLen → w.getLsbD k = w'.getLsbD k :=
    getLsbD_eq_of_extractLsb'_eq hzero
  have hf : ∀ lo, fieldAt w lo = fieldAt w' lo → lo ≤ k → k < lo + 8 → w.getLsbD k = w'.getLsbD k :=
    fun _ h => getLsbD_eq_of_extractLsb'_eq h
  cases i with
  | init | clear | swap | refresh => exact hz (Nat.zero_le k) (by simp [Instr.zeroLo, Instr.zeroLen]; omega)
  | quant v =>
    have h0 := hf 0 (Instr.quant.inj hargs)
    simp only [Instr.zeroLo, Instr.zeroLen] at hz
    by_cases hlt : k < 8
    · exact h0 (by omega) (by omega)
    · exact hz (by omega) (by omega)
  | setpix x y r g b =>
    obtain ⟨h48, h40, h16, h8, h0⟩ := Instr.setpix.inj hargs
    simp only [Instr.zeroLo, Instr.zeroLen] at hz
    obtain h | h | h | h | h | h : 48 ≤ k ∨ (40 ≤ k ∧ k < 48) ∨ (24 ≤ k ∧ k < 40) ∨ (16 ≤ k ∧ k < 24)
        ∨ (8 ≤ k ∧ k < 16) ∨ k < 8 := by omega
    · exact hf 48 h48 h (by omega)
    · exact hf 40 h40 h.1 (by omega)
    · exact hz h.1 (by omega)
    · exact hf 16 h16 h.1 (by omega)
    · exact hf 8 h8 h.1 (by omega)
    · exact hf 0 h0 (by omega) (by omega)
  | rdw role plane row colour half =>
    obtain ⟨h48, h40, h32, h24, h16⟩ := Instr.rdw.inj hargs
    simp only [Instr.zeroLo, Instr.zeroLen] at hz
    obtain h | h | h | h | h | h : 48 ≤ k ∨ (40 ≤ k ∧ k < 48) ∨ (32 ≤ k ∧ k < 40) ∨ (24 ≤ k ∧ k < 32)
        ∨ (16 ≤ k ∧ k < 24) ∨ k < 16 := by omega
    · exact hf 48 h48 h (by omega)
    · exact hf 40 h40 h.1 (by omega)
    · exact hf 32 h32 h.1 (by omega)
    · exact hf 24 h24 h.1 (by omega)
    · exact hf 16 h16 h.1 (by omega)
    · exact hz (by omega) (by omega)

/-! ### What the decoder answers -/

/-- A word with a row's opcode is decoded by that row: its zero field is tested and its operands are read
(rules R86, R88). -/
theorem decode_of_opcodeOf {w : Cmd} {j : Instr} (h : opcodeOf w = j.opcode) :
    decode w = guardZero w j.zeroLo j.zeroLen (readOperands w j) := by
  cases j <;> simp only [Instr.opcode] at h <;> simp [decode, h, Instr.zeroLo, Instr.zeroLen, readOperands]

/-- An opcode is the opcode of a command or is outside 0x01..0x07 (rules R86, R89). -/
theorem opcodeOf_cases (w : Cmd) :
    (∃ j : Instr, opcodeOf w = j.opcode) ∨ (opcodeOf w).toNat < 1 ∨ 7 < (opcodeOf w).toNat := by
  rw [or_iff_not_imp_right]
  intro h
  generalize opcodeOf w = op at h ⊢
  obtain h | h | h | h | h | h | h : op.toNat = 1 ∨ op.toNat = 2 ∨ op.toNat = 3 ∨ op.toNat = 4
      ∨ op.toNat = 5 ∨ op.toNat = 6 ∨ op.toNat = 7 := by omega
  · exact ⟨.init, BitVec.eq_of_toNat_eq h⟩
  · exact ⟨.quant 0#8, BitVec.eq_of_toNat_eq h⟩
  · exact ⟨.setpix 0#8 0#8 0#8 0#8 0#8, BitVec.eq_of_toNat_eq h⟩
  · exact ⟨.clear, BitVec.eq_of_toNat_eq h⟩
  · exact ⟨.swap, BitVec.eq_of_toNat_eq h⟩
  · exact ⟨.refresh, BitVec.eq_of_toNat_eq h⟩
  · exact ⟨.rdw 0#8 0#8 0#8 0#8 0#8, BitVec.eq_of_toNat_eq h⟩

/-- A word whose opcode is outside 0x01..0x07 is refused (rules R88, R89). -/
theorem decode_of_reserved {w : Cmd} (h : (opcodeOf w).toNat < 1 ∨ 7 < (opcodeOf w).toNat) :
    decode w = .error (.reservedOpcode (opcodeOf w)) := by
  have hne : ∀ op : Field, 1 ≤ op.toNat → op.toNat ≤ 7 → opcodeOf w ≠ op := by
    rintro op hlo hhi rfl
    omega
  simp [decode, hne]

/-- Everything a word must be to decode to a command: its opcode, a zero field of 0 and its operands
(rules R81 to R86, R88). -/
theorem decode_ok_iff {w : Cmd} {i : Instr} :
    decode w = .ok i ↔ opcodeOf w = i.opcode ∧ zeroField w i = 0#i.zeroLen ∧ readOperands w i = i := by
  constructor
  · intro h
    rcases opcodeOf_cases w with ⟨j, hj⟩ | hres
    · rw [decode_of_opcodeOf hj, guardZero_ok] at h
      obtain ⟨hz, rfl⟩ := h
      cases j <;> exact ⟨hj, hz, rfl⟩
    · simp [decode_of_reserved hres] at h
  · rintro ⟨hop, hz, hargs⟩
    rw [decode_of_opcodeOf hop, guardZero_ok]
    exact ⟨hz, hargs⟩

/-- A command is decoded from one word only: no bit of the word is dropped. -/
theorem decode_inj {w w' : Cmd} {i : Instr} (h : decode w = .ok i) (h' : decode w' = .ok i) : w = w' := by
  obtain ⟨hop, hz, hargs⟩ := decode_ok_iff.mp h
  obtain ⟨hop', hz', hargs'⟩ := decode_ok_iff.mp h'
  exact cmd_ext i (hop.trans hop'.symm) (hz.trans hz'.symm) (hargs.trans hargs'.symm)

/-! ### What the encoder places -/

/-- A placed field is read back whole (rule R85). -/
theorem fieldAt_place_same (f : Field) {lo : Nat} (h : lo + 8 ≤ 64) : fieldAt (place f lo) lo = f := by
  apply BitVec.eq_of_getLsbD_eq
  intro k hk
  rw [fieldAt, BitVec.getLsbD_extractLsb', getLsbD_place]
  simp [hk, show lo + k < 64 by omega]

/-- A placed field leaves 0 in the bits below and above it (rule R85). -/
theorem extractLsb'_place_of_disjoint (f : Field) {lo lo' len : Nat} (h : lo' + len ≤ lo ∨ lo + 8 ≤ lo') :
    (place f lo).extractLsb' lo' len = 0#len := by
  apply BitVec.eq_of_getLsbD_eq
  intro k hk
  rcases h with h | h
  · simp [getLsbD_place, show ¬ lo ≤ lo' + k by omega]
  · simp [getLsbD_place, BitVec.getLsbD_of_ge f (lo' + k - lo) (by omega)]

theorem fieldAt_place_of_disjoint (f : Field) {lo lo' : Nat} (h : lo' + 8 ≤ lo ∨ lo + 8 ≤ lo') :
    fieldAt (place f lo) lo' = 0#8 :=
  extractLsb'_place_of_disjoint f h

theorem fieldAt_or (w w' : Cmd) (lo : Nat) : fieldAt (w ||| w') lo = fieldAt w lo ||| fieldAt w' lo :=
  BitVec.extractLsb'_or

theorem fieldAt_and (w w' : Cmd) (lo : Nat) : fieldAt (w &&& w') lo = fieldAt w lo &&& fieldAt w' lo :=
  BitVec.extractLsb'_and

@[simp] theorem opcodeOf_encode (i : Instr) : opcodeOf (encode i) = i.opcode := by
  rw [opcodeOf_eq_fieldAt]
  cases i <;> simp [encode, formatZ, formatQ, formatP, formatW, fieldAt_or, fieldAt_place_same,
    fieldAt_place_of_disjoint, Instr.opcode]

@[simp] theorem zeroField_encode (i : Instr) : zeroField (encode i) i = 0#i.zeroLen := by
  cases i <;> simp [zeroField, encode, formatZ, formatQ, formatP, formatW, BitVec.extractLsb'_or,
    extractLsb'_place_of_disjoint, Instr.zeroLo, Instr.zeroLen]

@[simp] theorem readOperands_encode (i : Instr) : readOperands (encode i) i = i := by
  cases i <;> simp [readOperands, encode, formatQ, formatP, formatW, fieldAt_or, fieldAt_place_same,
    fieldAt_place_of_disjoint]

/-- Settles O1: the encoder places the opcode, the zero field and the operands where the decoder reads them. -/
theorem decodeInvertsEncode : Obligations.DecodeInvertsEncode := fun i =>
  decode_ok_iff.mpr ⟨opcodeOf_encode i, zeroField_encode i, readOperands_encode i⟩

/-- Settles O2: the word of the command decodes to it too, and only one word does. -/
theorem encodeInvertsDecode : Obligations.EncodeInvertsDecode := fun _ i h =>
  decode_inj (decodeInvertsEncode i) h

/-! ### The opcode table -/

/-- The match of a row is its opcode, with 0 in every other bit (rule R86). -/
theorem tableMatch_eq_place (i : Instr) : tableMatch i = place i.opcode 56 := by
  cases i <;> simp [tableMatch, place, Instr.opcode]

theorem opcodeOf_tableMatch (i : Instr) : opcodeOf (tableMatch i) = i.opcode := by
  rw [tableMatch_eq_place, opcodeOf_eq_fieldAt, fieldAt_place_same _ (by decide)]

/-- Rows with one match are one row: they have one opcode. -/
theorem tableMatch_eq_iff {i j : Instr} : tableMatch i = tableMatch j ↔ i.opcode = j.opcode := by
  constructor
  · intro h
    rw [← opcodeOf_tableMatch, h, opcodeOf_tableMatch]
  · intro h
    rw [tableMatch_eq_place, tableMatch_eq_place, h]

theorem zeroField_tableMatch (i : Instr) : zeroField (tableMatch i) i = 0#i.zeroLen := by
  have hbelow : i.zeroLo + i.zeroLen ≤ 56 := by cases i <;> simp [Instr.zeroLo, Instr.zeroLen]
  rw [zeroField, tableMatch_eq_place, extractLsb'_place_of_disjoint _ (.inl hbelow)]

/-- A row's mask keeps the opcode. -/
theorem opcodeOf_and_tableMask (w : Cmd) (i : Instr) : opcodeOf (w &&& tableMask i) = opcodeOf w := by
  have hmask : fieldAt (tableMask i) 56 = BitVec.allOnes 8 := by cases i <;> simp [fieldAt, tableMask]
  rw [opcodeOf_eq_fieldAt, fieldAt_and, hmask, BitVec.and_allOnes, opcodeOf_eq_fieldAt]

/-- A row's mask keeps the zero field. -/
theorem zeroField_and_tableMask (w : Cmd) (i : Instr) : zeroField (w &&& tableMask i) i = zeroField w i := by
  have hmask : zeroField (tableMask i) i = BitVec.allOnes i.zeroLen := by
    apply BitVec.eq_of_toNat_eq
    rw [zeroField, BitVec.extractLsb'_toNat, Nat.shiftRight_eq_div_pow, BitVec.toNat_allOnes]
    cases i <;> simp [tableMask, Instr.zeroLo, Instr.zeroLen]
  rw [zeroField, BitVec.extractLsb'_and, ← zeroField, ← zeroField, hmask, BitVec.and_allOnes]

/-- A row's mask drops the operands, which its match has as 0. -/
theorem readOperands_and_tableMask (w : Cmd) (i : Instr) :
    readOperands (w &&& tableMask i) i = readOperands (tableMatch i) i := by
  cases i <;> simp only [readOperands, fieldAt_and, tableMask, tableMatch] <;> simp [fieldAt]

/-- A word meets a row's mask and match when its opcode is the row's and its zero field is 0 (rule R86). -/
theorem and_tableMask_eq_tableMatch_iff {w : Cmd} {j : Instr} :
    w &&& tableMask j = tableMatch j ↔ opcodeOf w = j.opcode ∧ zeroField w j = 0#j.zeroLen := by
  rw [← opcodeOf_and_tableMask w j, ← zeroField_and_tableMask w j]
  constructor
  · intro h
    rw [h]
    exact ⟨opcodeOf_tableMatch j, zeroField_tableMatch j⟩
  · rintro ⟨hop, hz⟩
    exact cmd_ext j (hop.trans (opcodeOf_tableMatch j).symm) (hz.trans (zeroField_tableMatch j).symm)
      (readOperands_and_tableMask w j)

/-- Settles O3: on both sides the word has the row's opcode and a zero field of 0. -/
theorem decodeFollowsOpcodeTable : Obligations.DecodeFollowsOpcodeTable := by
  intro j w
  rw [and_tableMask_eq_tableMatch_iff]
  constructor
  · rintro ⟨i, hi, hij⟩
    have hop : opcodeOf w = j.opcode := (decode_ok_iff.mp hi).1.trans (tableMatch_eq_iff.mp hij)
    rw [decode_of_opcodeOf hop] at hi
    exact ⟨hop, (guardZero_ok.mp hi).1⟩
  · rintro ⟨hop, hz⟩
    exact ⟨readOperands w j, (decode_of_opcodeOf hop).trans (guardZero_ok.mpr ⟨hz, rfl⟩),
      tableMatch_eq_iff.mpr (opcode_readOperands w j)⟩

/-! ### The illegal words -/

/-- The guard refuses when the zero field is a number other than 0 (rule R88, test 2). -/
theorem guardZero_error_iff {w : Cmd} {lo len : Nat} {i : Instr} :
    (∃ r, guardZero w lo len i = .error r) ↔ w.toNat / 2 ^ lo % 2 ^ len ≠ 0 := by
  rw [ne_eq, ← extractLsb'_eq_zero_iff]
  unfold guardZero
  split <;> simp_all

/-- Settles O4, by the row the opcode names, or none. -/
theorem illegalWordsExactly : Obligations.IllegalWordsExactly := by
  intro w
  rcases opcodeOf_cases w with ⟨j, hj⟩ | hres
  · have hnum : w.toNat / 2 ^ 56 = j.opcode.toNat := by rw [← toNat_opcodeOf, hj]
    rw [decode_of_opcodeOf hj, guardZero_error_iff, hnum]
    cases j <;> simp [Instr.opcode, Instr.zeroLo, Instr.zeroLen]
  · rw [decode_of_reserved hres]
    rw [toNat_opcodeOf] at hres
    exact ⟨fun _ => .inl hres, fun _ => ⟨_, rfl⟩⟩

/-! ### The operands and the worked encodings -/

/-- Settles O5: an operand that `decode` answers is the field read at its position. -/
theorem operandsAreTheirBits : Obligations.OperandsAreTheirBits := by
  have hread {w : Cmd} {i : Instr} (h : decode w = .ok i) : readOperands w i = i := (decode_ok_iff.mp h).2.2
  refine ⟨fun w v h => ?_, fun w x y r g b h => ?_, fun w role plane row colour half h => ?_⟩
  · obtain rfl := Instr.quant.inj (hread h)
    simpa using toNat_fieldAt w 0
  · obtain ⟨rfl, rfl, rfl, rfl, rfl⟩ := Instr.setpix.inj (hread h)
    exact ⟨toNat_fieldAt w 48, toNat_fieldAt w 40, toNat_fieldAt w 16, toNat_fieldAt w 8,
      by simpa using toNat_fieldAt w 0⟩
  · obtain ⟨rfl, rfl, rfl, rfl, rfl⟩ := Instr.rdw.inj (hread h)
    exact ⟨toNat_fieldAt w 48, toNat_fieldAt w 40, toNat_fieldAt w 32, toNat_fieldAt w 24,
      toNat_fieldAt w 16⟩

/-- Settles O6, by running the decoder on the fifteen words. -/
theorem workedEncodings : Obligations.WorkedEncodings := by
  unfold Obligations.WorkedEncodings
  decide

end Sys2Proof
end

section
/-! SUPPORT. The quantizer table entry by entry (rules R100 to R104): a legal table as four properties of its entries,
the recipe without its cancelling factor, the integer formula and its thresholds. O19 to O23. -/

namespace Sys2Proof.Machine

/-! ### The legal table by its entries -/

/-- P_MONO for neighbouring entries is P_MONO for all. -/
theorem nonDecreasing_iff_pairwise {l : List (BitVec 8)} :
    nonDecreasing l = true ↔ l.Pairwise (fun p q => p.toNat ≤ q.toNat) := by
  refine ⟨nonDecreasing_pairwise, fun h => ?_⟩
  induction l with
  | nil => rfl
  | cons a l ih =>
    obtain ⟨ha, hl⟩ := List.pairwise_cons.mp h
    cases l with
    | nil => rfl
    | cons b l => simp [nonDecreasing, ih hl, ha b List.mem_cons_self]

/-- The same in terms of the read `LUT[v]`. -/
theorem nonDecreasing_lut_iff {cfg : Config} (hlen : cfg.lut.length = 256) :
    nonDecreasing cfg.lut = true
      ↔ ∀ u v : Field, u.toNat ≤ v.toNat → (lutAt cfg u).toNat ≤ (lutAt cfg v).toNat := by
  rw [nonDecreasing_iff_pairwise, List.pairwise_iff_getElem]
  constructor
  · intro h u v huv
    rw [lutAt_eq_getElem hlen, lutAt_eq_getElem hlen]
    rcases huv.eq_or_lt with heq | hlt
    · simp [heq]
    · exact h _ _ _ _ hlt
  · intro h i j hi hj hij
    have hle := h (BitVec.ofNatLT i (by omega)) (BitVec.ofNatLT j (by omega)) hij.le
    rwa [lutAt_eq_getElem hlen, lutAt_eq_getElem hlen] at hle

/-- The entries of the table are what its reads return. -/
theorem mem_lut_iff {cfg : Config} (hlen : cfg.lut.length = 256) {q : BitVec 8} :
    q ∈ cfg.lut ↔ ∃ v, lutAt cfg v = q := by
  constructor
  · intro hq
    obtain ⟨i, hi, rfl⟩ := List.getElem_of_mem hq
    exact ⟨BitVec.ofNatLT i (by omega), lutAt_eq_getElem hlen _⟩
  · rintro ⟨v, rfl⟩
    rw [lutAt_eq_getElem hlen]
    exact List.getElem_mem _

/-- P_ZERO, P_MAX, P_MONO and P_RANGE of a table of 256 entries (rule R101). -/
theorem lutLegal_iff_lutAt {cfg : Config} (hlen : cfg.lut.length = 256) :
    lutLegal cfg = true ↔ (lutAt cfg 0#8).toNat = 0 ∧ (lutAt cfg 255#8).toNat = maxLevel cfg.n
      ∧ (∀ u v : Field, u.toNat ≤ v.toNat → (lutAt cfg u).toNat ≤ (lutAt cfg v).toNat)
      ∧ ∀ v, (lutAt cfg v).toNat ≤ maxLevel cfg.n := by
  simp [lutLegal_iff, hlen, nonDecreasing_lut_iff, mem_lut_iff]

/-! ### QUANT -/

/-- Settles O19: an entry of 8 bits fits RESULT, so extending it keeps its value. -/
theorem quantReturnsTableEntry : Obligations.QuantReturnsTableEntry := fun s v =>
  ⟨setResult s ((lutAt s.cfg v).setWidth 32), rfl, BitVec.toNat_setWidth_of_le (by decide), rfl⟩

/-- Settles O20: RESULT is the entry QUANT reads, and the entries have the properties of a legal table. -/
theorem quantMeetsTableProperties : Obligations.QuantMeetsTableProperties := by
  intro s hs
  have hlen := ((lutLegal_iff s.cfg).mp hs).1
  obtain ⟨hzero, hmax, hmono, hrange⟩ := (lutLegal_iff_lutAt hlen).mp hs
  have hquant (v : Field) : ∃ t, exec (.quant v) s = .next t ∧ t.result.toNat = (lutAt s.cfg v).toNat := by
    obtain ⟨t, he, hr, -⟩ := quantReturnsTableEntry s v
    exact ⟨t, he, hr⟩
  refine ⟨?_, ?_, fun u v huv => ?_⟩
  · simpa only [hzero] using hquant 0#8
  · simpa only [hmax, maxLevel] using hquant 255#8
  · obtain ⟨t, he, hr⟩ := hquant u
    obtain ⟨t', he', hr'⟩ := hquant v
    exact ⟨t, t', he, he', hr ▸ hr' ▸ hmono u v huv, hr' ▸ hrange v⟩

/-! ### The recipe -/

theorem cast_maxLevel (n : Nat) : (maxLevel n : ℝ) = 2 ^ n - 1 := by
  simp [maxLevel, Nat.cast_sub Nat.one_le_two_pow]

/-- The factor 255 of rule R102 cancels. -/
theorem filledByRecipe_iff {γ : ℝ} {cfg : Config} :
    FilledByRecipe γ cfg ↔ ∀ v : Field, (lutAt cfg v).toNat =
      min (maxLevel cfg.n) ⌊((v.toNat : ℝ) / 255) ^ γ * maxLevel cfg.n⌋₊ := by
  have hcancel (x y : ℝ) : x * 255 * y / 255 = x * y := by ring
  simp only [FilledByRecipe, hcancel, cast_maxLevel]

/-- Settles O21: the recipe is a monotone function of v, 0 at 0 and the largest level at 255. -/
theorem recipeFillsLegalTable : Obligations.RecipeFillsLegalTable := by
  intro γ cfg hγ _ hlen hfill
  have hentry := filledByRecipe_iff.mp hfill
  refine (lutLegal_iff_lutAt hlen).mpr ⟨?_, ?_, fun u v huv => ?_, fun v => ?_⟩
  · simp [hentry, Real.zero_rpow hγ.ne']
  · simp [hentry]
  · rw [hentry u, hentry v]
    gcongr
  · exact hentry v ▸ min_le_left _ _

/-! ### The integer formula -/

theorem gamma2Entry_mono (n : Nat) : Monotone (gamma2Entry n) := by
  intro u v huv
  unfold gamma2Entry
  gcongr

theorem gamma2Entry_le_maxLevel {n v : Nat} (hv : v ≤ 255) : gamma2Entry n v ≤ maxLevel n :=
  calc gamma2Entry n v ≤ gamma2Entry n 255 := gamma2Entry_mono n hv
    _ = maxLevel n := Nat.mul_div_cancel_left _ (by decide)

theorem maxLevel_lt_of_le_eight {n : Nat} (hn : n ≤ 8) : maxLevel n < 2 ^ 8 :=
  (Nat.sub_one_lt_of_lt (Nat.two_pow_pos n)).trans_le (Nat.pow_le_pow_right two_pos hn)

/-- No entry of the table of GAMMA = 2 is cut off by its 8 bits. -/
theorem toNat_lutAt_of_gamma2Lut {cfg : Config} (hn : cfg.n ≤ 8) (hlut : cfg.lut = gamma2Lut cfg.n) (v : Field) :
    (lutAt cfg v).toNat = gamma2Entry cfg.n v.toNat := by
  have hfit : gamma2Entry cfg.n v.toNat < 2 ^ 8 :=
    (gamma2Entry_le_maxLevel (Nat.le_of_lt_succ v.isLt)).trans_lt (maxLevel_lt_of_le_eight hn)
  have hget : lutAt cfg v = BitVec.ofNat 8 (gamma2Entry cfg.n v.toNat) := by
    simp [lutAt, hlut, gamma2Lut, v.isLt]
  rw [hget, BitVec.toNat_ofNat, Nat.mod_eq_of_lt hfit]

/-- The integer formula is the floor of the recipe's real number. -/
theorem floor_recipe_two (n v : Nat) : ⌊((v : ℝ) / 255) ^ (2 : ℝ) * maxLevel n⌋₊ = gamma2Entry n v := by
  have hquot : ((v : ℝ) / 255) ^ (2 : ℝ) * maxLevel n = ((v * v * maxLevel n : ℕ) : ℝ) / (65025 : ℕ) := by
    rw [Real.rpow_two]
    push_cast
    ring
  rw [hquot, Nat.floor_div_eq_div, gamma2Entry]

/-- Settles O22: the formula is the recipe's floor, and it stays below the largest level. -/
theorem squareRecipeIsInteger : Obligations.SquareRecipeIsInteger := by
  intro cfg _ hn hlut
  rw [filledByRecipe_iff]
  intro v
  rw [toNat_lutAt_of_gamma2Lut hn hlut, floor_recipe_two,
    min_eq_right (gamma2Entry_le_maxLevel (Nat.le_of_lt_succ v.isLt))]

/-! ### The thresholds -/

/-- `t` is the least channel value that the integer formula takes to `q` or above, or 256 when there is none. -/
abbrev IsThreshold (n q t : Nat) : Prop :=
  (t = 0 ∨ gamma2Entry n (t - 1) < q) ∧ (t = 256 ∨ q ≤ gamma2Entry n t)

/-- The formula is monotone, so its values around the threshold decide on every channel value. -/
theorem IsThreshold.le_gamma2Entry_iff {n q t : Nat} (h : IsThreshold n q t) (v : Field) :
    q ≤ gamma2Entry n v.toNat ↔ t ≤ v.toNat := by
  obtain ⟨hbelow, hat⟩ := h
  constructor
  · intro hq
    by_contra hlt
    have hmono : gamma2Entry n v.toNat ≤ gamma2Entry n (t - 1) := gamma2Entry_mono n (by omega)
    omega
  · intro ht
    have hmono : gamma2Entry n t ≤ gamma2Entry n v.toNat := gamma2Entry_mono n ht
    have := v.isLt
    omega

/-- A list that holds the threshold of every level up to 32 gives the reference table as rule R104 does. -/
theorem lutAt_referenceConfig_eq_iff {T : List Nat} (hT : ∀ q < 33, IsThreshold 5 q (T.getD q 0)) (v : Field)
    {q : Nat} (hq : q < 32) :
    (lutAt referenceConfig v).toNat = q ↔ T.getD q 0 ≤ v.toNat ∧ v.toNat < T.getD (q + 1) 0 := by
  have hentry : (lutAt referenceConfig v).toNat = gamma2Entry 5 v.toNat :=
    toNat_lutAt_of_gamma2Lut (cfg := referenceConfig) (by decide) rfl v
  rw [hentry, ← (hT q (by omega)).le_gamma2Entry_iff, ← not_le, ← (hT (q + 1) (by omega)).le_gamma2Entry_iff]
  omega

/-- Settles O23: each of the 33 numbers of rule R104 is the threshold of its level. -/
theorem referenceThresholds : Obligations.ReferenceThresholds := fun v _ hq =>
  lutAt_referenceConfig_eq_iff (by decide) v hq

end Sys2Proof.Machine
end

section
/-! SUPPORT. The commands of the bit-plane buffer (rules R110 to R122): SETPIX word by word, lane by lane and pixel by
pixel, CLEAR on the words of a bank, SWAP on the roles, and the step of a command that records a fault. The value of a
pixel is read by its binary digits (`testBit_pixValue`). O24 to O33. -/

namespace Sys2Proof.Machine

/-! ### The value of a pixel, bit by bit -/

/-- Weighing the planes by powers of two builds the number with these binary digits. -/
theorem sum_planes_eq_ofBits (n : Nat) (f : Nat → Bool) :
    ((List.range n).map fun z => (f z).toNat * 2 ^ z).sum = Nat.ofBits fun i : Fin n => f i := by
  induction n generalizing f with
  | zero => rfl
  | succ n ih =>
    have hshift (z : Nat) : (f (z + 1)).toNat * 2 ^ (z + 1) = 2 * ((f (z + 1)).toNat * 2 ^ z) := by ring
    have htail : Nat.ofBits ((fun i : Fin (n + 1) => f i) ∘ Fin.succ) = Nat.ofBits fun i : Fin n => f (i + 1) :=
      rfl
    rw [Nat.ofBits_succ, htail, ← ih fun z => f (z + 1), ← List.sum_map_mul_left, List.range_succ_eq_map]
    simp [Function.comp_def, hshift, Nat.add_comm]

/-- Binary digit `z` of a pixel's value is its bit in plane `z` (rule R122). -/
theorem testBit_pixValue (s : State) (k x y : Nat) (c : Colour) (z : Nat) :
    (pixValue s k x y c).testBit z = (decide (z < s.cfg.n) && pixBit s k z x y c) := by
  rw [pixValue, sum_planes_eq_ofBits s.cfg.n fun z => pixBit s k z x y c, Nat.testBit_ofBits]
  by_cases hz : z < s.cfg.n <;> simp [hz]

/-- Pixels with the same bit in every plane have the same value. -/
theorem pixValue_congr {s t : State} (hcfg : t.cfg = s.cfg) {k k' x x' y y' : Nat} {c c' : Colour}
    (h : ∀ z < s.cfg.n, pixBit t k z x y c = pixBit s k' z x' y' c') :
    pixValue t k x y c = pixValue s k' x' y' c' := by
  refine Nat.eq_of_testBit_eq fun z => ?_
  rw [testBit_pixValue, testBit_pixValue, hcfg]
  by_cases hz : z < s.cfg.n
  · rw [h z hz]
  · simp [hz]

/-- A pixel whose words are 0 in every plane has the value 0 (rule R117). -/
theorem pixValue_eq_zero {s : State} {k x y : Nat} {c : Colour}
    (h : ∀ z < s.cfg.n, bpWord s k z y (colourIdx c) (x / 32) = 0#32) : pixValue s k x y c = 0 := by
  refine Nat.eq_of_testBit_eq fun z => ?_
  rw [testBit_pixValue, Nat.zero_testBit]
  by_cases hz : z < s.cfg.n
  · simp [pixBit, h z hz]
  · simp [hz]

/-- The OR-ed word of rule R112 has bit `b` in lane `j` and 0 in every other lane. -/
theorem getLsbD_lane (b : Bool) (j i : Nat) :
    ((BitVec.ofBool b).setWidth 32 <<< j).getLsbD i = (decide (i < 32) && decide (i = j) && b) := by
  rw [BitVec.getLsbD_shiftLeft, BitVec.getLsbD_setWidth, BitVec.getLsbD_ofBool]
  by_cases hij : i = j
  · simp [hij]
  · have hout : i < j ∨ i - j ≠ 0 := by omega
    rcases hout with h | h <;> simp [hij, h]

/-! ### SETPIX -/

section Setpix

variable {s t : State} {x y r g b : Field}

/-- What SETPIX at legal coordinates answers (rule R112). -/
theorem setpix_next (hx : x.toNat < 64) (hy : y.toNat < 32) (e : exec (.setpix x y r g b) s = .next t) :
    t = setBp s (orPixel s.cfg.n (writeBank s) y.toNat (pixelHalf x) (pixelBit x)
      (fun c => lutAt s.cfg (channelOf r g b c)) s.bp) :=
  Host.Outcome.next.inj (e.symm.trans (exec_setpix_legal ((coordLegal_iff x y).mpr ⟨hx, hy⟩) r g b s))

/-- SETPIX leaves the roles of the banks. -/
theorem setpix_writeBank (hx : x.toNat < 64) (hy : y.toNat < 32) (e : exec (.setpix x y r g b) s = .next t) :
    writeBank t = writeBank s := by
  rw [setpix_next hx hy e, writeBank, setBp_disp, writeBank]

/-- The pixel's word of plane `z` and colour `c` takes its bit (rule R112). -/
theorem bpWord_setpix (hx : x.toNat < 64) (hy : y.toNat < 32) (e : exec (.setpix x y r g b) s = .next t)
    {z : Nat} (hz : z < s.cfg.n) (c : Colour) :
    bpWord t (writeBank s) z y.toNat (colourIdx c) (x.toNat / 32) =
      bpWord s (writeBank s) z y.toNat (colourIdx c) (x.toNat / 32)
        ||| ((BitVec.ofBool ((lutAt s.cfg (channelOf r g b c)).getLsbD z)).setWidth 32 <<< (x.toNat % 32)) := by
  obtain rfl := setpix_next hx hy e
  rw [bpWord_setBp]
  exact readWord_orPixel_hit hy (pixelHalf_lt hx) _ s.bp hz c

/-- A word that is none of the pixel's stays (rule R112). -/
theorem readWord_setpix_of_ne (hx : x.toNat < 64) (hy : y.toNat < 32) (e : exec (.setpix x y r g b) s = .next t)
    {o : Nat}
    (ho : ∀ z < s.cfg.n, ∀ c : Colour,
      o ≠ wordOffset s.cfg.n (writeBank s) z y.toNat (colourIdx c) (x.toNat / 32)) :
    readWord t.bp o = readWord s.bp o := by
  obtain rfl := setpix_next hx hy e
  rw [setBp_bp]
  exact readWord_orPixel_miss hy (pixelHalf_lt hx) _ s.bp fun z hz c => (ho z hz c).symm

/-- SETPIX leaves every lane but the pixel's: a word of the pixel is OR-ed in one lane only, and any other word
stays (rule R121). -/
theorem getLsbD_setpix_of_ne (hx : x.toNat < 64) (hy : y.toNat < 32) (e : exec (.setpix x y r g b) s = .next t)
    (o : Nat) {lane : Nat} (hlane : lane ≠ x.toNat % 32) :
    (readWord t.bp o).getLsbD lane = (readWord s.bp o).getLsbD lane := by
  by_cases ho : ∃ z < s.cfg.n, ∃ c : Colour,
      o = wordOffset s.cfg.n (writeBank s) z y.toNat (colourIdx c) (x.toNat / 32)
  · obtain ⟨z, hz, c, rfl⟩ := ho
    have hword := bpWord_setpix hx hy e hz c
    rw [bpWord, bpWord, exec_cfg e] at hword
    rw [hword, BitVec.getLsbD_or, getLsbD_lane]
    simp [hlane]
  · rw [readWord_setpix_of_ne hx hy e fun z hz c he => ho ⟨z, hz, c, he⟩]

/-- The bit SETPIX leaves in a plane of its pixel (rule R112). -/
theorem pixBit_setpix (hx : x.toNat < 64) (hy : y.toNat < 32) (e : exec (.setpix x y r g b) s = .next t)
    {z : Nat} (hz : z < s.cfg.n) (c : Colour) :
    pixBit t (writeBank s) z x.toNat y.toNat c =
      (pixBit s (writeBank s) z x.toNat y.toNat c || (lutAt s.cfg (channelOf r g b c)).getLsbD z) := by
  rw [pixBit, bpWord_setpix hx hy e hz, BitVec.getLsbD_or, getLsbD_lane, pixBit]
  simp [Nat.mod_lt _ (by decide : 0 < 32)]

/-- SETPIX ORs the quantized channels into the value of its pixel (rules R112, R114). -/
theorem pixValue_setpix (hlut : lutLegal s.cfg = true) (hx : x.toNat < 64) (hy : y.toNat < 32)
    (e : exec (.setpix x y r g b) s = .next t) (c : Colour) :
    pixValue t (writeBank s) x.toNat y.toNat c =
      pixValue s (writeBank s) x.toNat y.toNat c ||| (lutAt s.cfg (channelOf r g b c)).toNat := by
  refine Nat.eq_of_testBit_eq fun z => ?_
  rw [Nat.testBit_or, testBit_pixValue, testBit_pixValue, exec_cfg e, BitVec.testBit_toNat]
  by_cases hz : z < s.cfg.n
  · simp [hz, pixBit_setpix hx hy e hz]
  · simp [hz, lutAt_getLsbD_of_le hlut _ (Nat.le_of_not_lt hz)]

/-- SETPIX leaves the bits of every other pixel: they are in another lane or in another word (rules R112, R121). -/
theorem pixBit_setpix_of_ne (hx : x.toNat < 64) (hy : y.toNat < 32) (e : exec (.setpix x y r g b) s = .next t)
    {z x' y' : Nat} (hz : z < s.cfg.n) (hx' : x' < 64) (hy' : y' < 32) (hne : (x', y') ≠ (x.toNat, y.toNat))
    (c : Colour) :
    pixBit t (writeBank s) z x' y' c = pixBit s (writeBank s) z x' y' c := by
  rw [pixBit, pixBit, bpWord, bpWord, exec_cfg e]
  by_cases hlane : x' % 32 = x.toNat % 32
  · rw [readWord_setpix_of_ne hx hy e fun z' hz' c' he => hne ?_]
    obtain ⟨-, -, hrow, -, hhalf⟩ := wordOffset_inj hz hy' (colourIdx_lt c) (by omega) hz' hy (colourIdx_lt c')
      (by omega) he
    rw [Prod.mk.injEq]
    omega
  · exact getLsbD_setpix_of_ne hx hy e _ hlane

end Setpix

/-- Settles O24: the state SETPIX answers, at the pixel's words and away from them. -/
theorem setpixOrsPlaneBits : Obligations.SetpixOrsPlaneBits := by
  intro s x y r g b hx hy
  obtain ⟨t, e⟩ := exec_answers (.setpix x y r g b) s
  refine ⟨t, e, ?_, fun z hz c => bpWord_setpix hx hy e hz c, fun o ho => readWord_setpix_of_ne hx hy e ho⟩
  rw [setpix_next hx hy e, setBp_bp]

/-- Settles O25, by the words of the pixel and the others. -/
theorem setpixLeavesOtherLanes : Obligations.SetpixLeavesOtherLanes :=
  fun _ _ _ _ _ _ _ hx hy e o _ hlane => getLsbD_setpix_of_ne hx hy e o hlane

/-- Settles O28: each of the two ORs its own channels in, the first into 0. -/
theorem repeatedSetpixAccumulates : Obligations.RepeatedSetpixAccumulates := by
  intro s x y r1 g1 b1 r2 g2 b2 hlut hx hy hzero
  obtain ⟨t, e⟩ := exec_answers (.setpix x y r1 g1 b1) s
  obtain ⟨u, e'⟩ := exec_answers (.setpix x y r2 g2 b2) t
  have hcfg := exec_cfg e
  refine ⟨u, by simp [execAll, e, e'], fun c => ?_⟩
  have hfirst := pixValue_setpix hlut hx hy e c
  have hsecond := pixValue_setpix (hcfg ▸ hlut) hx hy e' c
  rw [setpix_writeBank hx hy e, hcfg] at hsecond
  rw [hsecond, hfirst, hzero c, Nat.zero_or, BitVec.toNat_or]

/-! ### SWAP -/

/-- After a SWAP the bank that is written is the one that was on display (rule R118). -/
theorem writeBank_swap (s : State) : writeBank (setDisp s (1#1 - s.disp)) = displayBank s := by
  rw [displayBank, writeBank, setDisp_disp]
  rcases BitVec.eq_zero_or_eq_one s.disp with h | h <;> rw [h] <;> rfl

/-- Exchanging the roles twice restores DISP (rule R119). -/
theorem one_sub_one_sub_disp (d : BitVec 1) : 1#1 - (1#1 - d) = d := by
  revert d; decide

/-- Settles O31: DISP has one bit, so `1 − DISP` exchanges its two values. -/
theorem swapExchangesRoles : Obligations.SwapExchangesRoles := by
  intro s
  have hback : setDisp (setDisp s (1#1 - s.disp)) (1#1 - (setDisp s (1#1 - s.disp)).disp) = s := by
    rw [setDisp_disp, one_sub_one_sub_disp]
    rfl
  exact ⟨setDisp s (1#1 - s.disp), rfl, rfl, displayBank_swap s, displayBank_swap s, writeBank_swap s,
    congrArg Host.Outcome.next hback⟩

/-- Settles O27: into a pixel of 0 the OR puts the channels themselves, and SWAP exchanges the roles only. -/
theorem setpixRoundTrip : Obligations.SetpixRoundTrip := by
  intro s x y r g b hlut hx hy hzero
  obtain ⟨t, e⟩ := exec_answers (.setpix x y r g b) s
  have hpixel (c : Colour) :
      pixValue t (writeBank s) x.toNat y.toNat c = (lutAt s.cfg (channelOf r g b c)).toNat := by
    rw [pixValue_setpix hlut hx hy e c, hzero c, Nat.zero_or]
  refine ⟨t, setDisp t (1#1 - t.disp), e, rfl, fun c => ⟨hpixel c, ?_⟩, fun x' hx' y' hy' c hne => ?_,
    fun z row c h hr => exec_setpix_display_word e hr⟩
  · rw [displayBank_swap, setpix_writeBank hx hy e]
    exact hpixel c
  · exact pixValue_congr (exec_cfg e) fun z hz => pixBit_setpix_of_ne hx hy e hz hx' hy' hne c

/-! ### CLEAR -/

/-- The offsets of a bank are those of its tuples in range (rule R55). -/
theorem exists_wordOffset_of_bank {n k o : Nat} (hk : k < 2) (hlo : k * bankSize n ≤ o)
    (hhi : o < k * bankSize n + bankSize n) : ∃ z row c h, InRange n z row c h ∧ wordOffset n k z row c h = o := by
  have hend : (k + 1) * bankSize n ≤ arraySize n := Nat.mul_le_mul_right _ hk
  rw [← Nat.succ_mul] at hhi
  obtain ⟨k', z, row, c, h, -, ⟨hz, hrow, hc, hh⟩, rfl⟩ := exists_wordOffset_eq (hhi.trans_le hend)
  obtain ⟨hlo', hhi'⟩ := wordOffset_bank (k := k') hz hrow hc hh
  have hle : k < k' + 1 := Nat.lt_of_mul_lt_mul_right (hlo.trans_lt hhi')
  have hge : k' < k + 1 := Nat.lt_of_mul_lt_mul_right (hlo'.trans_lt hhi)
  obtain rfl : k' = k := by omega
  exact ⟨z, row, c, h, ⟨hz, hrow, hc, hh⟩, rfl⟩

/-- A zeroed bank reads 0 in each of its words (rule R116). -/
theorem readWord_zeroRange_bank {n k z row c h : Nat} (hr : InRange n z row c h) (m : Memory) :
    readWord (zeroRange m (k * bankSize n) (bankSize n)) (wordOffset n k z row c h) = 0#32 := by
  obtain ⟨hz, hrow, hc, hh⟩ := hr
  rw [readWord_zeroRange, if_pos]
  rw [← Nat.succ_mul]
  exact wordOffset_bank hz hrow hc hh

/-- Zeroing a range again changes nothing. -/
theorem zeroRange_zeroRange (m : Memory) (lo len : Nat) :
    zeroRange (zeroRange m lo len) lo len = zeroRange m lo len := by
  simp [zeroRange, List.filter_filter]

/-- Settles O29: the zeroed range is the write bank, word for word. -/
theorem clearZeroesWriteBank : Obligations.ClearZeroesWriteBank := by
  intro s
  refine ⟨_, rfl, rfl, fun z row c h hr => readWord_zeroRange_bank hr s.bp, fun o ho => ?_⟩
  rw [setBp_bp, readWord_zeroRange, if_neg]
  rintro ⟨hlo, hhi⟩
  obtain ⟨z, row, c, h, hr, he⟩ := exists_wordOffset_of_bank (writeBank_lt s) hlo hhi
  exact ho z row c h hr he.symm

/-- Settles O30: a pixel's words are words of the zeroed bank, and zeroing it again changes nothing. -/
theorem clearedPixelsReadZero : Obligations.ClearedPixelsReadZero := by
  intro s
  refine ⟨setBp s (zeroRange s.bp (writeBank s * bankSize s.cfg.n) (bankSize s.cfg.n)), rfl, ?_,
    fun x hx y hy c => pixValue_eq_zero fun z hz => ?_⟩
  · exact congrArg (fun m => Host.Outcome.next (setBp s m)) (zeroRange_zeroRange s.bp _ _)
  · exact readWord_zeroRange_bank ⟨hz, hy, colourIdx_lt c, by omega⟩ s.bp

/-! ### RDW -/

/-- The bank a role operand names, by its number (rule R120). -/
theorem roleBank_eq (s : State) (role : Field) :
    roleBank s role = if role.toNat = 0 then s.disp.toNat else 1 - s.disp.toNat :=
  if_congr BitVec.toNat_inj.symm rfl rfl

/-- Settles O32: RDW answers RESULT with the word of the bank its role names. -/
theorem rdwReturnsNamedWord : Obligations.RdwReturnsNamedWord := by
  intro s role plane row colour half hrole hplane hrow hcolour hhalf
  have hlegal := (indexLegal_iff s.cfg.n role plane row colour half).mpr ⟨hrole, hplane, hrow, hcolour, hhalf⟩
  refine ⟨_, exec_rdw_legal hlegal, rfl, ?_⟩
  rw [setResult_result, roleBank_eq]

/-! ### Operands out of range -/

/-- The step of a command that raises a fault: the first is recorded with the word issued, a later one changes
nothing but the inputs (rules R181, R184). -/
theorem step_of_exec_raiseFault {s : State} {w : Cmd} {rest : List Input} {i : Instr} {k : Cause}
    (hc : configLegal s.cfg = true) (hi : s.inputs = .command w :: rest) (hw : decode w = .ok i)
    (he : exec i (setInputs s rest) = .next (raiseFault (setInputs s rest) k (encode i))) :
    (s.fault = 0#1 → step s =
        .next { s with inputs := rest, fault := 1#1, fcause := causeCode k, finfo := w })
      ∧ (s.fault = 1#1 → step s = .next { s with inputs := rest }) := by
  rw [encodeInvertsDecode w i hw] at he
  have hstep := (stepRunsDecodedCommand s w rest i hc hi hw).trans he
  refine ⟨fun h0 => ?_, fun h1 => ?_⟩
  · rw [hstep, raiseFault_first (setInputs s rest) k w h0]
    rfl
  · rw [hstep, raiseFault_later (setInputs s rest) k w h1]
    rfl

/-- Settles O26: SETPIX out of range raises COORD_RANGE. -/
theorem setpixOutOfRangeFaults : Obligations.SetpixOutOfRangeFaults := by
  intro s w rest x y r g b hc hi hw hout
  have hlegal : coordLegal x y = false := by
    rw [← Bool.not_eq_true, coordLegal_iff]
    omega
  exact step_of_exec_raiseFault hc hi hw (exec_setpix_fault hlegal r g b (setInputs s rest))

/-- Settles O33: RDW out of range raises INDEX_RANGE. -/
theorem rdwOutOfRangeFaults : Obligations.RdwOutOfRangeFaults := by
  intro s w rest role plane row colour half hc hi hw hout
  have hlegal : indexLegal (setInputs s rest).cfg.n role plane row colour half = false := by
    rw [← Bool.not_eq_true, indexLegal_iff, setInputs_cfg]
    omega
  exact step_of_exec_raiseFault hc hi hw (exec_rdw_fault hlegal)

end Sys2Proof.Machine
end

section
/-! SUPPORT. The row shifter (rules R133 to R141): its single port writes emit the events of a strobe, which writes
those events hold, how often a line rises over them, the levels they leave, and what the panel observer of rule R144
makes of them. O36, O38, O41, O42 and O47. -/

namespace Sys2Proof.Machine

/-! ### SHIFT_ROW as single port writes -/

/-- The writes of a column step emit its events (rule R133). -/
theorem columnWrites_eq_emit (top bot : RowWords) (s : State) (i : Nat) :
    columnWrites top bot s i = emit s (columnStep s.cfg.pins top bot i) := by
  simp only [columnWrites, portWrite, settle, ← emit_append]
  rfl

/-- The writes of the latch step emit its events (rule R134). -/
theorem latchWrites_eq_emit (s : State) (a : Nat) : latchWrites s a = emit s (latchStep s.cfg.pins a) := by
  simp only [latchWrites, portWrite, settle, ← emit_append]
  rfl

/-- The writes of consecutive column steps emit their events in order (rule R135). -/
theorem foldl_columnWrites (top bot : RowWords) (l : List Nat) (s : State) :
    l.foldl (columnWrites top bot) s = emit s (l.flatMap (columnStep s.cfg.pins top bot)) := by
  induction l generalizing s with
  | nil => simp
  | cons i l ih => rw [List.foldl_cons, ih, columnWrites_eq_emit, emit_cfg, ← emit_append, List.flatMap_cons]

/-- Settles O36: the single writes emit the events of the strobe, one step after another. -/
theorem shiftRowPerformsStrobe : Obligations.ShiftRowPerformsStrobe := by
  intro s a top bot
  rw [foldl_columnWrites, latchWrites_eq_emit, emit_cfg, ← emit_append, shiftRow, emit_trace, emit_out, strobe]
  exact ⟨rfl, rfl, rfl⟩

/-! ### The writes of a strobe -/

/-- The events of a column step (rule R133). -/
theorem mem_columnStep {pm : PinMap} {top bot : RowWords} {i : Nat} {ev : Event} :
    ev ∈ columnStep pm top bot i ↔ ev = .clr (maskOf pm dataLines)
      ∨ ev = .set (maskOf pm (dataSignals top bot i ++ [.clk])) ∨ ev = .settle 1
      ∨ ev = .clr (maskOf pm [.clk]) := by
  simp [columnStep]

/-- The events of a latch step (rule R134). -/
theorem mem_latchStep {pm : PinMap} {a : Nat} {ev : Event} :
    ev ∈ latchStep pm a ↔ ev = .clr (maskOf pm addrLines)
      ∨ ev = .set (maskOf pm ([.lat, .oe] ++ addrSignals a)) ∨ ev = .settle 2
      ∨ ev = .clr (maskOf pm [.lat, .oe]) := by
  simp [latchStep]

/-- The writes of the set register in a strobe: a column's data with CLK, or LAT and OE with the address. -/
theorem set_mem_strobe {pm : PinMap} {a : Nat} {top bot : RowWords} {m : Word}
    (h : Event.set m ∈ strobe pm a top bot) :
    (∃ i, m = maskOf pm (dataSignals top bot i ++ [.clk])) ∨ m = maskOf pm ([.lat, .oe] ++ addrSignals a) := by
  rcases mem_strobe h with ⟨i, -, h⟩ | h
  · exact .inl ⟨i, by simpa using mem_columnStep.mp h⟩
  · exact .inr (by simpa using mem_latchStep.mp h)

theorem notMem_dataSignals_of_notMem_dataLines {sig : Signal} (h : sig ∉ dataLines) (top bot : RowWords) (i : Nat) :
    sig ∉ dataSignals top bot i :=
  fun hmem => h (dataLines_of_mem_dataSignals hmem)

theorem mem_addrLines_of_mem_addrSignals {a : Nat} {sig : Signal} (h : sig ∈ addrSignals a) : sig ∈ addrLines :=
  (List.mem_filter.mp h).1

/-- Settles O42: the SETs of a strobe hold data lines, control lines and `addr(a)`, and E is none of them. -/
theorem lineENeverSet : Obligations.LineENeverSet := by
  refine ⟨fun a ha sig => ⟨mem_addrSignals, e_not_mem_addrSignals ha⟩, fun pm a top bot => ?_, ?_⟩
  · exact List.mem_append_right _ (mem_latchStep.mpr (.inl rfl))
  · intro pm n bank m hp hm
    obtain ⟨p, hslot, hset⟩ := List.mem_flatMap.mp hm
    obtain ⟨-, -, ha⟩ := mem_schedule.mp hslot
    rcases set_mem_strobe hset with ⟨i, rfl⟩ | rfl
    · have hdata := notMem_dataSignals_of_notMem_dataLines (by decide : Signal.e ∉ dataLines)
      simp [levelOf_maskOf hp, hdata]
    · simp [levelOf_maskOf hp, e_not_mem_addrSignals ha]

/-! ### The levels a strobe leaves -/

theorem upperLine_injective : Function.Injective upperLine := by
  intro c c'
  cases c <;> cases c' <;> decide

theorem lowerLine_injective : Function.Injective lowerLine := by
  intro c c'
  cases c <;> cases c' <;> decide

theorem upperLine_ne_lowerLine (c c' : Colour) : upperLine c ≠ lowerLine c' := by
  cases c <;> cases c' <;> decide

/-- A colour's upper line is among a column's data exactly when the upper row's bit is 1 (rule R140). -/
@[simp] theorem upperLine_mem_dataSignals {top bot : RowWords} {i : Nat} {c : Colour} :
    upperLine c ∈ dataSignals top bot i ↔ columnBit top c i = true := by
  simp [mem_dataSignals, upperLine_injective.eq_iff, (upperLine_ne_lowerLine _ _).symm]

/-- A colour's lower line is among a column's data exactly when the lower row's bit is 1 (rule R140). -/
@[simp] theorem lowerLine_mem_dataSignals {top bot : RowWords} {i : Nat} {c : Colour} :
    lowerLine c ∈ dataSignals top bot i ↔ columnBit bot c i = true := by
  simp [mem_dataSignals, lowerLine_injective.eq_iff, upperLine_ne_lowerLine]

theorem upperLine_mem_dataLines (c : Colour) : upperLine c ∈ dataLines := by
  cases c <;> decide

theorem lowerLine_mem_dataLines (c : Colour) : lowerLine c ∈ dataLines := by
  cases c <;> decide

theorem notMem_addrLines_of_mem_dataLines {sig : Signal} (h : sig ∈ dataLines) : sig ∉ addrLines := by
  revert h
  cases sig <;> decide

theorem mem_addrLines_of_addrBit {sig : Signal} {k : Nat} (h : addrBit sig = some k) : sig ∈ addrLines := by
  cases sig <;> simp_all [addrBit, addrLines]

/-- Column steps leave CLK low where it was low (rule R133). -/
theorem levelOf_columns_clk {pm : PinMap} (hp : pinsLegal pm = true) (top bot : RowWords) (l : List Nat) {out : Word}
    (h : levelOf pm out .clk = false) :
    levelOf pm (outAfter out (l.flatMap (columnStep pm top bot))) .clk = false :=
  outAfter_flatMap_keeps (P := fun o => levelOf pm o .clk = false)
    (fun i _ o _ => levelOf_columnStep hp top bot i o .clk) h

/-- A strobe fixes every line: the address lines as `addr(a)`, the data lines as the last column's data, CLK, LAT
and OE low (rule R138). -/
theorem levelOf_strobe {pm : PinMap} (hp : pinsLegal pm = true) (a : Nat) (top bot : RowWords) (out : Word)
    (sig : Signal) :
    levelOf pm (outAfter out (strobe pm a top bot)) sig =
      if sig ∈ addrLines then decide (sig ∈ addrSignals a)
      else if sig ∈ dataLines then decide (sig ∈ dataSignals top bot 63)
      else false := by
  rw [strobe, List.range_succ, List.flatMap_append, List.flatMap_singleton, outAfter_append, outAfter_append,
    levelOf_latchStep hp, levelOf_columnStep hp]
  cases sig <;> simp [addrLines, dataLines]

/-- Settles O41: the level of each line after a strobe. -/
theorem strobeExitLevels : Obligations.StrobeExitLevels := by
  intro pm a top bot out hp ha
  refine ⟨fun sig hsig => ?_, fun sig k hk => ?_, fun c => ⟨?_, ?_⟩⟩
  · rw [levelOf_strobe hp]
    by_cases haddr : sig ∈ addrLines
    · have he : sig = .e := by revert hsig haddr; cases sig <;> decide
      rw [if_pos haddr, he, decide_eq_false (e_not_mem_addrSignals ha)]
    · have hline : sig ∉ dataLines := by revert hsig; cases sig <;> decide
      rw [if_neg haddr, if_neg hline]
  · rw [levelOf_strobe hp, if_pos (mem_addrLines_of_addrBit hk)]
    simp [mem_addrSignals, hk]
  · have hc := upperLine_mem_dataLines c
    rw [levelOf_strobe hp, if_neg (notMem_addrLines_of_mem_dataLines hc), if_pos hc]
    simp
  · have hc := lowerLine_mem_dataLines c
    rw [levelOf_strobe hp, if_neg (notMem_addrLines_of_mem_dataLines hc), if_pos hc]
    simp

/-! ### The counts and edges of a strobe -/

/-- What is counted along an event list from the pin levels before it, such as the edges of a line: nothing on no
events, and the sum over two parts, the second from the levels the first leaves. -/
structure CountsEvents (count : Word → List Event → Nat) : Prop where
  nil : ∀ out, count out [] = 0
  append : ∀ out es es', count out (es ++ es') = count out es + count (outAfter out es) es'

theorem countsEvents_length : CountsEvents fun _ => List.length :=
  ⟨fun _ => rfl, fun _ _ _ => List.length_append⟩

theorem countsEvents_countP (q : Event → Bool) : CountsEvents fun _ => List.countP q :=
  ⟨fun _ => rfl, fun _ _ _ => List.countP_append⟩

theorem countsEvents_cyclesOf : CountsEvents fun _ => cyclesOf :=
  ⟨fun _ => rfl, fun _ => cyclesOf_append⟩

theorem countsEvents_risingEdges (pm : PinMap) (sig : Signal) : CountsEvents (risingEdges pm sig) := by
  refine ⟨fun _ => rfl, fun out es es' => ?_⟩
  induction es generalizing out with
  | nil => simp [risingEdges]
  | cons ev es ih => simp [risingEdges, ih, Nat.add_assoc]

namespace CountsEvents

variable {count : Word → List Event → Nat} (hcount : CountsEvents count) {P : Word → Prop} {m k : Nat}

include hcount

/-- Lists that each keep `P` and count `m` from levels with `P` count `m` each when concatenated. -/
theorem count_flatMap {α : Type} {f : α → List Event} {l : List α}
    (hf : ∀ x ∈ l, ∀ out, P out → P (outAfter out (f x)) ∧ count out (f x) = m) {out : Word} (h : P out) :
    count out (l.flatMap f) = l.length * m := by
  induction l generalizing out with
  | nil => rw [List.flatMap_nil, hcount.nil, List.length_nil, Nat.zero_mul]
  | cons x l ih =>
    obtain ⟨hkeep, hm⟩ := hf x (by simp) out h
    rw [List.flatMap_cons, hcount.append, hm, ih (fun y hy => hf y (by simp [hy])) hkeep, List.length_cons]
    ring

/-- A strobe counts 64 column steps and a latch step (rule R141). -/
theorem count_strobe {pm : PinMap} {a : Nat} {top bot : RowWords}
    (hcol : ∀ i out, P out →
      P (outAfter out (columnStep pm top bot i)) ∧ count out (columnStep pm top bot i) = m)
    (hlatch : ∀ out, P out → count out (latchStep pm a) = k) {out : Word} (h : P out) :
    count out (strobe pm a top bot) = 64 * m + k := by
  have hkeep := outAfter_flatMap_keeps (l := List.range 64) (fun i _ out h => (hcol i out h).1) h
  rw [strobe, hcount.append, hcount.count_flatMap (fun i _ => hcol i) h, hlatch _ hkeep, List.length_range]

end CountsEvents

/-- A count that does not look at the pin levels counts 64 column steps and a latch step (rule R141). -/
theorem CountsEvents.count_strobe_of_const {count : List Event → Nat} (hcount : CountsEvents fun _ => count)
    (m k : Nat) {pm : PinMap} {a : Nat} {top bot : RowWords} (hcol : ∀ i, count (columnStep pm top bot i) = m)
    (hlatch : count (latchStep pm a) = k) : count (strobe pm a top bot) = 64 * m + k :=
  hcount.count_strobe (P := fun _ => True) (out := 0#32) (fun i _ _ => ⟨trivial, hcol i⟩) (fun _ _ => hlatch) trivial

/-- A line ends an event list as high as it began plus its rises minus its falls. -/
theorem risingEdges_add_level (pm : PinMap) (sig : Signal) (out : Word) (es : List Event) :
    (levelOf pm out sig).toNat + risingEdges pm sig out es =
      fallingEdges pm sig out es + (levelOf pm (outAfter out es) sig).toNat := by
  induction es generalizing out with
  | nil => simp [risingEdges, fallingEdges]
  | cons ev es ih =>
    have hrest := ih (driveOut out ev)
    simp only [risingEdges, fallingEdges, outAfter_cons]
    cases hb : levelOf pm out sig <;> cases ha : levelOf pm (driveOut out ev) sig <;>
      simp only [ha, Bool.toNat_true, Bool.toNat_false, Bool.not_true, Bool.not_false, Bool.and_true,
        Bool.and_false] at hrest ⊢ <;> omega

/-- Over a column step CLK rises once, and no other control or address line rises (rule R133). -/
theorem risingEdges_columnStep {pm : PinMap} (hp : pinsLegal pm = true) (top bot : RowWords) (i : Nat)
    {sig : Signal} (hsig : sig ∉ dataLines) {out : Word} (hlow : levelOf pm out sig = false) :
    risingEdges pm sig out (columnStep pm top bot i) = (decide (sig = .clk)).toNat := by
  have hdata := notMem_dataSignals_of_notMem_dataLines hsig top bot i
  rcases eq_or_ne sig .clk with rfl | hclk <;>
    simp [columnStep, risingEdges, driveOut, levelOf_or, levelOf_clear hp, levelOf_maskOf hp, *]

/-- Over a latch step LAT and OE rise once, and no other line but an address line rises (rule R134). -/
theorem risingEdges_latchStep {pm : PinMap} (hp : pinsLegal pm = true) (a : Nat) {sig : Signal}
    (hsig : sig ∉ addrLines) {out : Word} (hlow : levelOf pm out sig = false) :
    risingEdges pm sig out (latchStep pm a) = (decide (sig = .lat ∨ sig = .oe)).toNat := by
  have haddr : sig ∉ addrSignals a := fun h => hsig (mem_addrLines_of_mem_addrSignals h)
  by_cases hlat : sig = .lat ∨ sig = .oe <;>
    simp_all [latchStep, risingEdges, driveOut, levelOf_or, levelOf_clear hp, levelOf_maskOf hp]

/-- How often a control line that is low before a strobe rises over it (rule R139). -/
theorem risingEdges_strobe {pm : PinMap} (hp : pinsLegal pm = true) (a : Nat) (top bot : RowWords) {sig : Signal}
    (hdata : sig ∉ dataLines) (haddr : sig ∉ addrLines) {out : Word} (hlow : levelOf pm out sig = false) :
    risingEdges pm sig out (strobe pm a top bot) =
      64 * (decide (sig = .clk)).toNat + (decide (sig = .lat ∨ sig = .oe)).toNat := by
  refine (countsEvents_risingEdges pm sig).count_strobe (P := fun o => levelOf pm o sig = false)
    (fun i o ho => ⟨?_, risingEdges_columnStep hp top bot i hdata ho⟩)
    (fun o ho => risingEdges_latchStep hp a haddr ho) hlow
  rw [levelOf_columnStep hp, if_neg hdata, ho, ite_self]

/-- A control line that is low before a strobe is low after it, so it falls as often as it rises (rule R139). -/
theorem fallingEdges_strobe {pm : PinMap} (hp : pinsLegal pm = true) (a : Nat) (top bot : RowWords) {sig : Signal}
    (hdata : sig ∉ dataLines) (haddr : sig ∉ addrLines) {out : Word} (hlow : levelOf pm out sig = false) :
    fallingEdges pm sig out (strobe pm a top bot) = risingEdges pm sig out (strobe pm a top bot) := by
  have hbalance := risingEdges_add_level pm sig out (strobe pm a top bot)
  rw [hlow, levelOf_strobe hp, if_neg haddr, if_neg hdata, Bool.toNat_false] at hbalance
  omega

/-- Two lines that begin at one level and are in every mask together have one level trace. -/
theorem levelTrace_congr {pm : PinMap} (hp : pinsLegal pm = true) {sig sig' : Signal} {es : List Event}
    (hmask : ∀ ev ∈ es, levelOf pm ev.mask sig = levelOf pm ev.mask sig') {out : Word}
    (hout : levelOf pm out sig = levelOf pm out sig') :
    levelTrace pm sig out es = levelTrace pm sig' out es := by
  induction es generalizing out with
  | nil => rfl
  | cons ev es ih =>
    have hev := hmask ev (by simp)
    have hnext : levelOf pm (driveOut out ev) sig = levelOf pm (driveOut out ev) sig' := by
      cases ev <;> simp_all [driveOut, Event.mask, levelOf_or, levelOf_clear hp]
    rw [levelTrace, levelTrace, hnext, ih (fun x hx => hmask x (by simp [hx])) hnext]

@[simp] theorem levelOf_zero (pm : PinMap) (sig : Signal) : levelOf pm 0#32 sig = false :=
  BitVec.getLsbD_zero

/-- The masks of a strobe hold OE exactly when they hold LAT (rules R133, R134). -/
theorem strobe_mask_oe_eq_lat {pm : PinMap} (hp : pinsLegal pm = true) {a : Nat} {top bot : RowWords} {ev : Event}
    (h : ev ∈ strobe pm a top bot) : levelOf pm ev.mask .oe = levelOf pm ev.mask .lat := by
  rcases mem_strobe h with ⟨i, -, h⟩ | h
  · have hoe := notMem_dataSignals_of_notMem_dataLines (by decide : Signal.oe ∉ dataLines) top bot i
    have hlat := notMem_dataSignals_of_notMem_dataLines (by decide : Signal.lat ∉ dataLines) top bot i
    rcases mem_columnStep.mp h with rfl | rfl | rfl | rfl <;>
      simp [Event.mask, levelOf_maskOf hp, hoe, hlat, dataLines]
  · rcases mem_latchStep.mp h with rfl | rfl | rfl | rfl <;>
      simp [Event.mask, levelOf_maskOf hp, addrLines]

/-- Settles O38: every count is 64 times a column step's and the latch step's. -/
theorem strobeCounts : Obligations.StrobeCounts := by
  intro pm a top bot
  refine ⟨countsEvents_length.count_strobe_of_const 4 4 (fun _ => rfl) rfl,
    (countsEvents_countP Event.isWrite).count_strobe_of_const 3 3 (fun _ => rfl) rfl,
    (countsEvents_countP isClr).count_strobe_of_const 2 2 (fun _ => rfl) rfl,
    (countsEvents_countP isSet).count_strobe_of_const 1 1 (fun _ => rfl) rfl,
    (countsEvents_countP fun e => !e.isWrite).count_strobe_of_const 1 1 (fun _ => rfl) rfl,
    countsEvents_cyclesOf.count_strobe_of_const 1 2 (fun _ => rfl) rfl, fun out hp hclk hlat hoe => ?_⟩
  have hrclk := risingEdges_strobe hp a top bot (by decide : Signal.clk ∉ dataLines) (by decide) hclk
  have hrlat := risingEdges_strobe hp a top bot (by decide : Signal.lat ∉ dataLines) (by decide) hlat
  refine ⟨hrclk, ?_, hrlat, ?_, ?_⟩
  · rw [fallingEdges_strobe hp a top bot (by decide) (by decide) hclk, hrclk]
    rfl
  · rw [fallingEdges_strobe hp a top bot (by decide) (by decide) hlat, hrlat]
    rfl
  · exact levelTrace_congr hp (fun ev => strobe_mask_oe_eq_lat hp) (hoe.trans hlat.symm)

/-! ### The panel observer -/

theorem panelAfter_append (pm : PinMap) (out : Word) (p : Panel) (es es' : List Event) :
    panelAfter pm out p (es ++ es') = panelAfter pm (outAfter out es) (panelAfter pm out p es) es' := by
  induction es generalizing out p with
  | nil => rfl
  | cons ev es ih => exact ih (driveOut out ev) (panelEvent pm out p ev)

@[simp] theorem panelEvent_settle (pm : PinMap) (before : Word) (p : Panel) (n : Nat) :
    panelEvent pm before p (.settle n) = p := rfl

/-- An event shifts the stages exactly when it raises CLK, which no settle does (rule R144). -/
theorem panelEvent_sr (pm : PinMap) (before : Word) (p : Panel) (ev : Event) :
    (panelEvent pm before p ev).sr =
      if levelOf pm before .clk = false ∧ levelOf pm (driveOut before ev) .clk = true then
        p.sr.drop 1 ++ [BitVec.ofNat 6 (levelsOf pm (driveOut before ev) dataLines)]
      else p.sr := by
  cases ev with
  | settle n => simp +contextual [driveOut]
  | _ =>
    simp only [panelEvent, Event.isWrite, if_true, panelSelect, panelLatch, panelShift]
    split <;> split <;> rfl

/-- The levels of the data lines as a number: the upper row's three colours, then the lower row's. -/
theorem levelsOf_dataLines (pm : PinMap) (out : Word) :
    levelsOf pm out dataLines =
      (levelOf pm out (upperLine .red)).toNat + 2 * (levelOf pm out (upperLine .green)).toNat
        + 4 * (levelOf pm out (upperLine .blue)).toNat + 8 * (levelOf pm out (lowerLine .red)).toNat
        + 16 * (levelOf pm out (lowerLine .green)).toNat + 32 * (levelOf pm out (lowerLine .blue)).toNat := by
  simp only [levelsOf, dataLines, List.foldr, upperLine, lowerLine]
  ring

/-- The data lines carry the column once its SET has followed the clear (rules R133, R140). -/
theorem levelsOf_column {pm : PinMap} (hp : pinsLegal pm = true) (top bot : RowWords) (i : Nat) (out : Word) :
    levelsOf pm ((out &&& ~~~maskOf pm dataLines) ||| maskOf pm (dataSignals top bot i ++ [.clk])) dataLines =
      columnLevels top bot i := by
  have hline {sig : Signal} (h : sig ∈ dataLines) :
      levelOf pm ((out &&& ~~~maskOf pm dataLines) ||| maskOf pm (dataSignals top bot i ++ [.clk])) sig =
        decide (sig ∈ dataSignals top bot i) := by
    have hclk : sig ≠ .clk := by rintro rfl; exact absurd h (by decide)
    simp [levelOf_or, levelOf_clear hp, levelOf_maskOf hp, h, hclk]
  simp only [levelsOf_dataLines, hline (upperLine_mem_dataLines _), hline (lowerLine_mem_dataLines _),
    upperLine_mem_dataSignals, lowerLine_mem_dataSignals, Bool.decide_eq_true, columnLevels]

/-- A column step that begins with CLK low shifts its column in (rules R133, R144). -/
theorem panelAfter_columnStep_sr {pm : PinMap} (hp : pinsLegal pm = true) (top bot : RowWords) (i : Nat)
    {out : Word} (hclk : levelOf pm out .clk = false) (p : Panel) :
    (panelAfter pm out p (columnStep pm top bot i)).sr =
      p.sr.drop 1 ++ [BitVec.ofNat 6 (columnLevels top bot i)] := by
  have hdata : Signal.clk ∉ dataLines := by decide
  simp [columnStep, panelAfter, panelEvent_sr, driveOut, levelOf_or, levelOf_clear hp, levelOf_maskOf hp, hclk,
    hdata, levelsOf_column hp]

/-- The column steps shift their columns in, one behind another (rules R133, R144). -/
theorem panelAfter_columns_sr {pm : PinMap} (hp : pinsLegal pm = true) (top bot : RowWords) {out : Word}
    (hclk : levelOf pm out .clk = false) (p : Panel) {n : Nat} (hn : n ≤ p.sr.length) :
    (panelAfter pm out p ((List.range n).flatMap (columnStep pm top bot))).sr =
      p.sr.drop n ++ (List.range n).map fun i => BitVec.ofNat 6 (columnLevels top bot i) := by
  induction n with
  | zero => simp [panelAfter]
  | succ n ih =>
    have hlow := levelOf_columns_clk hp top bot (List.range n) hclk
    rw [List.range_succ, List.flatMap_append, List.flatMap_singleton, panelAfter_append,
      panelAfter_columnStep_sr hp top bot n hlow, ih (by omega), List.drop_append_of_le_length (by simp; omega),
      List.drop_drop, List.append_assoc, List.map_append]
    rfl

/-- A write after which CLK is low shifts nothing (rule R144). -/
theorem panelEvent_of_clk_low {pm : PinMap} {before : Word} {ev : Event} (hw : ev.isWrite = true)
    (hclk : levelOf pm (driveOut before ev) .clk = false) (p : Panel) :
    panelEvent pm before p ev =
      { sr := p.sr
        latched := if levelOf pm (driveOut before ev) .lat = true then p.sr else p.latched
        addrSel := BitVec.ofNat 5 (levelsOf pm (driveOut before ev) addrLines)
        blank := levelOf pm (driveOut before ev) .oe } := by
  simp only [panelEvent, hw, if_true, panelShift, hclk, Bool.false_eq_true, and_false, if_false, panelLatch]
  split <;> rfl

/-- A latch step that begins with CLK low latches the stages and takes the address and OE as it leaves them (rules
R134, R144). -/
theorem panelAfter_latchStep {pm : PinMap} (hp : pinsLegal pm = true) (a : Nat) {out : Word}
    (hclk : levelOf pm out .clk = false) (p : Panel) :
    panelAfter pm out p (latchStep pm a) =
      { sr := p.sr
        latched := p.sr
        addrSel := BitVec.ofNat 5 (levelsOf pm (outAfter out (latchStep pm a)) addrLines)
        blank := levelOf pm (outAfter out (latchStep pm a)) .oe } := by
  have haddr : Signal.clk ∉ addrSignals a := fun h => absurd (mem_addrLines_of_mem_addrSignals h) (by decide)
  simp [latchStep, panelAfter, panelEvent_of_clk_low (ev := .clr _) rfl, panelEvent_of_clk_low (ev := .set _) rfl,
    driveOut, levelOf_or, levelOf_clear hp, levelOf_maskOf hp, hclk, haddr]

/-- The address lines carry the row address as a number (rule R136). -/
theorem levelsOf_addrLines {pm : PinMap} {out : Word} {a : Nat} (ha : a < 32)
    (h : ∀ sig k, addrBit sig = some k → levelOf pm out sig = a.testBit k) : levelsOf pm out addrLines = a := by
  simp only [levelsOf, addrLines, List.foldr, h .a 0 rfl, h .b 1 rfl, h .c 2 rfl, h .d 3 rfl, h .e 4 rfl,
    Nat.toNat_testBit]
  omega

/-- The panel after a strobe that begins with CLK low: the 64 columns in the stages and latched, row address a
selected, the output on (rule R144). -/
theorem panelAfter_strobe {pm : PinMap} (hp : pinsLegal pm = true) {a : Nat} (ha : a < 16) (top bot : RowWords)
    {out : Word} (hclk : levelOf pm out .clk = false) {p : Panel} (hlen : p.sr.length = 64) :
    panelAfter pm out p (strobe pm a top bot) =
      { sr := (List.range 64).map fun i => BitVec.ofNat 6 (columnLevels top bot i)
        latched := (List.range 64).map fun i => BitVec.ofNat 6 (columnLevels top bot i)
        addrSel := BitVec.ofNat 5 a
        blank := false } := by
  obtain ⟨hcontrol, haddr, -⟩ := strobeExitLevels pm a top bot out hp ha
  have hcolumns := panelAfter_columns_sr hp top bot hclk p hlen.ge
  rw [List.drop_of_length_le hlen.le, List.nil_append] at hcolumns
  rw [strobe, panelAfter_append, panelAfter_latchStep hp a (levelOf_columns_clk hp top bot _ hclk), hcolumns,
    ← outAfter_append, ← strobe, levelsOf_addrLines (by omega) haddr, hcontrol .oe (by simp)]

/-- Bits 2:0 of a stage are the upper row's colours. -/
theorem extractLsb'_upper (n : Nat) : (BitVec.ofNat 6 n).extractLsb' 0 3 = BitVec.ofNat 3 n := by
  refine BitVec.eq_of_toNat_eq ?_
  simp

/-- Bits 5:3 of a stage are the lower row's colours. -/
theorem extractLsb'_lower (n : Nat) : (BitVec.ofNat 6 n).extractLsb' 3 3 = BitVec.ofNat 3 (n / 8) := by
  refine BitVec.eq_of_toNat_eq ?_
  simp [Nat.shiftRight_eq_div_pow]
  omega

/-- Settles O47: what the panel shows follows from the latched columns, the selected address and the output on. -/
theorem panelLatchesStrobe : Obligations.PanelLatchesStrobe := by
  intro pm a top bot out p hp ha hclk hlen
  have haddr : (BitVec.ofNat 5 a).toNat = a := Nat.mod_eq_of_lt (by omega)
  rw [panelAfter_strobe hp ha top bot hclk hlen]
  refine ⟨rfl, haddr, rfl, ?_, ?_⟩
  · simp [panelShows, haddr, extractLsb'_upper]
  · simp [panelShows, haddr, extractLsb'_lower]

end Sys2Proof.Machine
end

section
/-! SUPPORT. The refresh scheduler (rules R150 to R157): the position of every strobe in the schedule, counts over the
schedule plane by plane, the events of a sweep by position, and what a sweep depends on. O37, O39, O40, O43, O44 and
O45. -/

namespace Sys2Proof.Machine

/-! ### What REFRESH does -/

/-- Settles O37: REFRESH emits the sweep, and a sweep writes no direction register. -/
theorem refreshAppendsSweep : Obligations.RefreshAppendsSweep := by
  intro s
  refine ⟨_, execRefresh_eq s, rfl, rfl, ?_⟩
  rw [emit, displaySweep, dirAfter_sweep]

/-! ### The position of every strobe -/

/-- Two nested counting loops are one loop, its index split by quotient and remainder. -/
theorem flatMap_range_map_range {α : Type} (f : Nat → Nat → α) (m : Nat) {w : Nat} (hw : 0 < w) :
    (List.range m).flatMap (fun k => (List.range w).map (f k)) =
      (List.range (w * m)).map fun i => f (i / w) (i % w) := by
  induction m with
  | zero => rfl
  | succ m ih =>
    rw [List.range_succ, List.flatMap_append, List.flatMap_singleton, ih, Nat.mul_succ, List.range_add,
      List.map_append, List.map_map]
    congr 1
    refine List.map_congr_left fun j hj => ?_
    have hj : j < w := List.mem_range.mp hj
    simp [Nat.mul_add_div hw, Nat.div_eq_of_lt hj, Nat.mod_eq_of_lt hj]

/-- The schedule position of strobe `s` (rule R157). -/
def slotAt (s : Nat) : Slot :=
  { z := Nat.log2 (s / 16 + 1), k := s / 16 + 1 - 2 ^ Nat.log2 (s / 16 + 1), a := s % 16 }

@[simp] theorem slotAt_a (s : Nat) : (slotAt s).a = s % 16 := rfl

/-- Strobe `16 × (2^z − 1 + k) + a` is the one of plane `z`, repeat `k` and address `a` (rule R157). -/
theorem slotAt_eq {z k a : Nat} (hk : k < 2 ^ z) (ha : a < 16) :
    slotAt (16 * (2 ^ z - 1 + k) + a) = { z := z, k := k, a := a } := by
  have hpos := Nat.two_pow_pos z
  have hdiv : (16 * (2 ^ z - 1 + k) + a) / 16 + 1 = 2 ^ z + k := by omega
  have hmod : (16 * (2 ^ z - 1 + k) + a) % 16 = a := by omega
  have hlog : Nat.log2 (2 ^ z + k) = z := (Nat.log2_eq_iff (by omega)).mpr (by rw [Nat.pow_succ]; omega)
  rw [slotAt, hdiv, hmod, hlog, Nat.add_sub_cancel_left]

/-- Strobe `s` is of plane `z` exactly within `[16 × (2^z − 1), 16 × (2^(z+1) − 1))` (rule R157). -/
theorem slotAt_z_eq_iff {s z : Nat} :
    (slotAt s).z = z ↔ 16 * (2 ^ z - 1) ≤ s ∧ s < 16 * (2 ^ (z + 1) - 1) := by
  have hz := Nat.two_pow_pos z
  have hz' := Nat.two_pow_pos (z + 1)
  rw [slotAt, Nat.log2_eq_iff (by omega)]
  omega

/-- Plane `n` adds `16 × 2^n` strobes to those of the planes before it (rule R152). -/
theorem strobes_succ (n : Nat) : 16 * (2 ^ (n + 1) - 1) = 16 * (2 ^ n - 1) + 16 * 2 ^ n := by
  have hpos := Nat.two_pow_pos n
  rw [Nat.pow_succ]
  omega

/-- The schedule is its positions in order (rules R150, R157). -/
theorem schedule_eq_map_slotAt (n : Nat) : schedule n = (List.range (16 * (2 ^ n - 1))).map slotAt := by
  induction n with
  | zero => rfl
  | succ n ih =>
    rw [schedule_succ, ih, flatMap_range_map_range _ _ (by decide), strobes_succ, List.range_add, List.map_append,
      List.map_map]
    congr 1
    refine List.map_congr_left fun i hi => ?_
    have hi : i < 16 * 2 ^ n := List.mem_range.mp hi
    have hindex : 16 * (2 ^ n - 1) + i = 16 * (2 ^ n - 1 + i / 16) + i % 16 := by omega
    rw [Function.comp_apply, hindex, slotAt_eq (by omega) (by omega)]

/-- A sweep has `16 × (2^N − 1)` strobes (rule R152). -/
@[simp] theorem length_schedule (n : Nat) : (schedule n).length = 16 * (2 ^ n - 1) := by
  rw [schedule_eq_map_slotAt, List.length_map, List.length_range]

theorem getElem?_schedule {n s : Nat} (hs : s < 16 * (2 ^ n - 1)) : (schedule n)[s]? = some (slotAt s) := by
  simp [schedule_eq_map_slotAt, hs]

/-- Settles O40, from the position of every strobe. -/
theorem strobeNumbering : Obligations.StrobeNumbering := by
  intro n
  refine ⟨fun z k a hz hk ha => ?_, fun s hs => getElem?_schedule hs, fun s hs z _ => ?_⟩
  · have hle : 2 ^ (z + 1) ≤ 2 ^ n := Nat.pow_le_pow_right (by decide) hz
    rw [Nat.pow_succ] at hle
    rw [getElem?_schedule (by omega), slotAt_eq hk ha]
  · rw [getElem?_schedule hs, ← slotAt_z_eq_iff]
    simp

/-! ### Counts over the schedule -/

/-- What a pass over the 16 addresses counts, the repeats of its plane count `2^z` times (rule R150). -/
theorem countP_schedule {q : Slot → Bool} {f : Nat → Nat}
    (hq : ∀ z k, (List.range 16).countP (fun a => q { z := z, k := k, a := a }) = f z) (n : Nat) :
    (schedule n).countP q = ∑ z ∈ Finset.range n, f z * 2 ^ z := by
  induction n with
  | zero => rfl
  | succ n ih =>
    have hturn (k : Nat) :
        ((List.range 16).map fun a => ({ z := n, k := k, a := a } : Slot)).countP q = f n :=
      List.countP_map.trans (hq n k)
    rw [schedule_succ, List.countP_append, ih, Finset.sum_range_succ, List.countP_flatMap, Function.comp_def]
    simp [hturn, Nat.mul_comm]

/-- Each pass over the 16 addresses meets a row pair once (rule R152). -/
theorem countP_range_row {a : Nat} (ha : a < 16) (b : Bool) :
    (List.range 16).countP (fun a' => decide (a' = a) && b) = b.toNat := by
  cases b with
  | false => simp
  | true =>
    have hcount : (List.range 16).count a = 1 := by rw [List.count_range, if_pos ha]
    simpa [List.count, Bool.beq_eq_decide_eq] using hcount

/-- The strobes of a row pair whose plane meets `b` are `2^z` for each such plane (rules R152, R153). -/
theorem countP_schedule_row (n : Nat) {a : Nat} (ha : a < 16) (b : Nat → Bool) :
    (schedule n).countP (fun p => decide (p.a = a) && b p.z) = ∑ z ∈ Finset.range n, (b z).toNat * 2 ^ z :=
  countP_schedule (fun z _ => countP_range_row ha (b z)) n

/-- Each row pair is strobed `2^N − 1` times in a sweep (rule R152). -/
theorem countP_schedule_a (n : Nat) {a : Nat} (ha : a < 16) :
    (schedule n).countP (fun p => decide (p.a = a)) = 2 ^ n - 1 := by
  have hrow := countP_schedule_row n ha fun _ => true
  simpa [Nat.geomSum_eq] using hrow

/-- A count that is `m` for every strobe that begins at levels with `P`, which a strobe keeps, is `m` for each strobe
of a sweep (rule R152). -/
theorem CountsEvents.count_sweep {count : Word → List Event → Nat} (hcount : CountsEvents count) {P : Word → Prop}
    {m : Nat} {pm : PinMap}
    (hstrobe : ∀ a top bot out, P out →
      P (outAfter out (strobe pm a top bot)) ∧ count out (strobe pm a top bot) = m)
    (n : Nat) (bank : Nat → Nat → RowWords) {out : Word} (h : P out) :
    count out (sweep pm n bank) = m * (16 * (2 ^ n - 1)) := by
  rw [sweep, hcount.count_flatMap (fun p _ => hstrobe p.a _ _) h, length_schedule, Nat.mul_comm]

/-- A count that does not look at the pin levels, and is `m` for every strobe. -/
theorem CountsEvents.count_sweep_of_const {count : List Event → Nat} (hcount : CountsEvents fun _ => count)
    {m : Nat} {pm : PinMap} (hstrobe : ∀ a top bot, count (strobe pm a top bot) = m) (n : Nat)
    (bank : Nat → Nat → RowWords) : count (sweep pm n bank) = m * (16 * (2 ^ n - 1)) :=
  hcount.count_sweep (P := fun _ => True) (out := 0#32) (fun a top bot _ _ => ⟨trivial, hstrobe a top bot⟩) n bank
    trivial

theorem length_strobe (pm : PinMap) (a : Nat) (top bot : RowWords) : (strobe pm a top bot).length = 260 := by
  obtain ⟨hlength, -⟩ := strobeCounts pm a top bot
  exact hlength

theorem countP_isWrite_strobe (pm : PinMap) (a : Nat) (top bot : RowWords) :
    (strobe pm a top bot).countP Event.isWrite = 195 := by
  obtain ⟨-, hwrites, -⟩ := strobeCounts pm a top bot
  exact hwrites

theorem cyclesOf_strobe (pm : PinMap) (a : Nat) (top bot : RowWords) : cyclesOf (strobe pm a top bot) = 66 := by
  obtain ⟨-, -, -, -, -, hcycles, -⟩ := strobeCounts pm a top bot
  exact hcycles

/-- Over a sweep that begins with CLK low, CLK rises 64 times for each strobe (rule R152). -/
theorem risingEdges_sweep_clk {pm : PinMap} (hp : pinsLegal pm = true) (n : Nat) (bank : Nat → Nat → RowWords)
    {out : Word} (hclk : levelOf pm out .clk = false) :
    risingEdges pm .clk out (sweep pm n bank) = 64 * (16 * (2 ^ n - 1)) := by
  refine (countsEvents_risingEdges pm .clk).count_sweep (P := fun o => levelOf pm o .clk = false)
    (fun a top bot o ho => ⟨?_, ?_⟩) n bank hclk
  · exact levelOf_strobe hp a top bot o .clk
  · exact risingEdges_strobe hp a top bot (by decide) (by decide) ho

/-- Settles O39: each count is a strobe's for every strobe, or a count over the schedule plane by plane. -/
theorem sweepCounts : Obligations.SweepCounts := by
  intro pm n bank
  refine ⟨length_schedule n, countsEvents_length.count_sweep_of_const (length_strobe pm) n bank,
    (countsEvents_countP Event.isWrite).count_sweep_of_const (countP_isWrite_strobe pm) n bank,
    countsEvents_cyclesOf.count_sweep_of_const (cyclesOf_strobe pm) n bank,
    fun out hp => risingEdges_sweep_clk hp n bank, fun z hz => ?_, fun a => countP_schedule_a n, fun z hz a ha => ?_⟩
  · have hpass (z' k : Nat) : (List.range 16).countP (fun _ => decide (z' = z)) = if z' = z then 16 else 0 := by
      by_cases h : z' = z <;> simp [h]
    rw [countP_schedule hpass]
    simp [ite_mul, hz]
  · have hrow := countP_schedule_row n ha fun z' => decide (z' = z)
    simpa [Bool.toNat, Bool.cond_decide, ite_mul, hz, Bool.and_comm] using hrow

/-! ### The events of a sweep by position -/

/-- Where every list has `w` elements, element `w × i + j` of the concatenation is element `j` of list `i`. -/
theorem getElem?_flatMap_of_length {α β : Type} {f : α → List β} {w : Nat} (hf : ∀ x, (f x).length = w) {l : List α}
    {i j : Nat} {x : α} (hx : l[i]? = some x) (hj : j < w) : (l.flatMap f)[w * i + j]? = (f x)[j]? := by
  induction l generalizing i with
  | nil => simp at hx
  | cons y l ih =>
    rw [List.flatMap_cons]
    cases i with
    | zero =>
      obtain rfl : y = x := by simpa using hx
      rw [Nat.mul_zero, Nat.zero_add, List.getElem?_append_left (by rw [hf]; exact hj)]
    | succ i =>
      rw [Nat.mul_succ, List.getElem?_append_right (by rw [hf]; omega), hf, ← ih (by simpa using hx)]
      congr 1
      omega

/-- Event `4 × x + 1` of a strobe sets the data of column `x` with CLK (rules R133, R141). -/
theorem getElem?_strobe_column (pm : PinMap) (a : Nat) (top bot : RowWords) {x : Nat} (hx : x < 64) :
    (strobe pm a top bot)[4 * x + 1]? = some (.set (maskOf pm (dataSignals top bot x ++ [.clk]))) := by
  have hlen : ((List.range 64).flatMap (columnStep pm top bot)).length = 256 := by
    simp [List.length_flatMap, length_columnStep]
  rw [strobe, List.getElem?_append_left (by omega),
    getElem?_flatMap_of_length (x := x) (length_columnStep pm top bot) (by simp [hx]) (by decide)]
  rfl

/-- Strobe `s` of a sweep begins at event `260 × s` (rules R139, R157). -/
theorem getElem?_sweep (pm : PinMap) {n : Nat} (bank : Nat → Nat → RowWords) {s j : Nat} (hs : s < 16 * (2 ^ n - 1))
    (hj : j < 260) : (sweep pm n bank)[260 * s + j]? = (slotStrobe pm bank (slotAt s))[j]? :=
  getElem?_flatMap_of_length (fun _ => length_strobe pm _ _ _) (getElem?_schedule hs) hj

/-- The SET of column `x` sets the line of row `y` and colour `c` exactly when the row's bit is 1 (rules R136, R140). -/
theorem rowLine_mem_dataSignals {rows : Nat → RowWords} {y : Nat} (hy : y < 32) {c : Colour} {x : Nat} :
    rowLine y c ∈ dataSignals (rows (y % 16)) (rows (y % 16 + 16)) x ↔ columnBit (rows y) c x = true := by
  unfold rowLine
  split
  · next hlt => rw [upperLine_mem_dataSignals, Nat.mod_eq_of_lt hlt]
  · next hge =>
    have hrow : y % 16 + 16 = y := by omega
    rw [lowerLine_mem_dataSignals, hrow]

theorem rowLine_ne_clk (y : Nat) (c : Colour) : rowLine y c ≠ .clk := by
  unfold rowLine
  split <;> cases c <;> decide

/-- Strobe `s` of a sweep, if it is of the row pair of row `y`, sets the row's line in column step `x` exactly when the
bit of its plane is 1 (rule R153). -/
theorem setsLine_sweep {pm : PinMap} (hp : pinsLegal pm = true) {n : Nat} (bank : Nat → Nat → RowWords)
    (trace : List Event) {s x y : Nat} (hs : s < 16 * (2 ^ n - 1)) (hx : x < 64) (hy : y < 32) (c : Colour)
    (hrow : s % 16 = y % 16) :
    setsLine pm (trace ++ sweep pm n bank) (trace.length + 260 * s + 4 * x + 1) (rowLine y c) =
      columnBit (bank (slotAt s).z y) c x := by
  have hset : (trace ++ sweep pm n bank)[trace.length + 260 * s + 4 * x + 1]? =
      some (.set (maskOf pm (dataSignals (bank (slotAt s).z (y % 16)) (bank (slotAt s).z (y % 16 + 16)) x
        ++ [.clk]))) := by
    have hindex : trace.length + 260 * s + 4 * x + 1 = trace.length + (260 * s + (4 * x + 1)) := by omega
    rw [hindex, List.getElem?_append_right (by omega), Nat.add_sub_cancel_left, getElem?_sweep pm bank hs (by omega),
      slotStrobe, slotAt_a, hrow, getElem?_strobe_column _ _ _ _ hx]
  rw [setsLine, hset]
  simp [levelOf_maskOf hp, rowLine_mem_dataSignals (rows := bank (slotAt s).z) hy, rowLine_ne_clk]

/-- The strobes of a sweep that light a pixel are counted by the planes that hold its bit (rule R153). -/
theorem litStrobes_sweep {pm : PinMap} (hp : pinsLegal pm = true) (n : Nat) (bank : Nat → Nat → RowWords)
    (trace : List Event) {x y : Nat} (hx : x < 64) (hy : y < 32) (c : Colour) :
    litStrobes pm n (trace ++ sweep pm n bank) trace.length (y % 16) x (rowLine y c) =
      ∑ z ∈ Finset.range n, (columnBit (bank z y) c x).toNat * 2 ^ z := by
  rw [← countP_schedule_row n (Nat.mod_lt y (by decide)) fun z => columnBit (bank z y) c x, schedule_eq_map_slotAt,
    List.countP_map, litStrobes, ← List.countP_eq_length_filter]
  refine List.countP_congr fun s hs => ?_
  rw [Function.comp_apply, slotAt_a]
  by_cases hrow : s % 16 = y % 16
  · rw [setsLine_sweep hp bank trace (List.mem_range.mp hs) hx hy c hrow]
  · simp [hrow]

/-- The value of a pixel in terms of the bits a strobe reads (rules R122, R140). -/
theorem pixValue_eq_sum_columnBit (s : State) (k x y : Nat) (c : Colour) :
    pixValue s k x y c = ∑ z ∈ Finset.range s.cfg.n, (columnBit (bankWords s k z y) c x).toNat * 2 ^ z := rfl

/-- Settles O43: a plane of weight `2^z` has `2^z` strobes of the row pair, which light the pixel exactly when the
plane holds its bit. -/
theorem binaryWeightingLaw : Obligations.BinaryWeightingLaw := by
  intro s x y c hp hx hy
  have hrow := countP_schedule_a s.cfg.n (Nat.mod_lt y (by decide : 16 > 0))
  rw [schedule_eq_map_slotAt, List.countP_map] at hrow
  refine ⟨_, execRefresh_eq s, ?_, List.countP_eq_length_filter.symm.trans hrow⟩
  rw [emit_trace, displaySweep, litStrobes_sweep hp _ _ _ hx hy, pixValue_eq_sum_columnBit]

/-! ### What a sweep depends on -/

/-- A strobe reads the two halves of its rows for each colour, and nothing else of them (rule R140). -/
theorem strobe_congr (pm : PinMap) (a : Nat) {top bot top' bot' : RowWords}
    (htop : ∀ c, ∀ h < 2, top' c h = top c h) (hbot : ∀ c, ∀ h < 2, bot' c h = bot c h) :
    strobe pm a top' bot' = strobe pm a top bot := by
  have hcolumn : ∀ i ∈ List.range 64, columnStep pm top' bot' i = columnStep pm top bot i := by
    intro i hi
    have hhalf : i / 32 < 2 := by have := List.mem_range.mp hi; omega
    simp [columnStep, dataSignals, columnBit, htop _ _ hhalf, hbot _ _ hhalf]
  rw [strobe, strobe, List.flatMap_congr hcolumn]

/-- A sweep reads the words in range of its bank, and nothing else of it (rules R66, R151). -/
theorem sweep_congr (pm : PinMap) {n : Nat} {bank bank' : Nat → Nat → RowWords}
    (h : ∀ z < n, ∀ row < 32, ∀ c, ∀ half < 2, bank' z row c half = bank z row c half) :
    sweep pm n bank' = sweep pm n bank := by
  refine List.flatMap_congr fun p hmem => ?_
  obtain ⟨hz, -, ha⟩ := mem_schedule.mp hmem
  exact strobe_congr pm p.a (h p.z hz p.a (by omega)) (h p.z hz (p.a + 16) (by omega))

/-- States of one configuration with the same words in range on display have the same sweep (rules R66, R151). -/
theorem displaySweep_congr {s t : State} (hcfg : t.cfg = s.cfg)
    (h : ∀ z row c h, InRange s.cfg.n z row c h →
      bpWord t (displayBank t) z row c h = bpWord s (displayBank s) z row c h) :
    displaySweep t = displaySweep s := by
  rw [displaySweep, hcfg]
  exact sweep_congr _ fun z hz row hrow c half hhalf => h z row _ half ⟨hz, hrow, colourIdx_lt c, hhalf⟩

/-- Settles O45: the sweep reads the words in range of the display bank only. -/
theorem sweepDependsOnDisplayBank : Obligations.SweepDependsOnDisplayBank := by
  intro s s' hcfg h
  refine ⟨_, _, displaySweep s, execRefresh_eq s, execRefresh_eq s', rfl, ?_⟩
  rw [emit_trace, displaySweep_congr hcfg h]

theorem changesDisplay_eq_false_iff (i : Instr) : changesDisplay i = false ↔ i ≠ .init ∧ i ≠ .swap := by
  cases i <;> simp [changesDisplay]

/-- Only INIT and SWAP change DISP (rules R22, R118). -/
theorem exec_displayBank {i : Instr} {s t : State} (hi : changesDisplay i = false) (e : exec i s = .next t) :
    displayBank t = displayBank s := by
  obtain ⟨hinit, hswap⟩ := (changesDisplay_eq_false_iff i).mp hi
  rcases exec_cases i s with ⟨hi, -⟩ | ⟨v, h⟩ | ⟨m, h, -⟩ | ⟨hi, -⟩ | ⟨-, h⟩ | ⟨k, h, -⟩
  case inl => exact absurd hi hinit
  case inr.inr.inr.inl => exact absurd hi hswap
  all_goals
    obtain rfl := Host.Outcome.next.inj (h.symm.trans e)
    simp [displayBank]

/-- No command but SWAP and INIT changes the sweep of the display bank (rule R154). -/
theorem exec_displaySweep {i : Instr} {s t : State} (hi : changesDisplay i = false) (e : exec i s = .next t) :
    displaySweep t = displaySweep s := by
  obtain ⟨hinit, -⟩ := (changesDisplay_eq_false_iff i).mp hi
  obtain ⟨hwords, -⟩ := displayBankIsolation i s t hinit e
  refine displaySweep_congr (exec_cfg e) fun z row c h hr => ?_
  rw [exec_displayBank hi e, hwords z row c h hr]

/-- Commands but SWAP and INIT run to their end and keep the sweep of the display bank (rule R154). -/
theorem execAll_displaySweep {is : List Instr} (his : ∀ i ∈ is, changesDisplay i = false) (s : State) :
    ∃ t, execAll is s = .next t ∧ displaySweep t = displaySweep s := by
  induction is generalizing s with
  | nil => exact ⟨s, rfl, rfl⟩
  | cons i is ih =>
    obtain ⟨u, hu⟩ := exec_answers i s
    obtain ⟨t, ht, hsweep⟩ := ih (fun j hj => his j (by simp [hj])) u
    refine ⟨t, ?_, hsweep.trans (exec_displaySweep (his i (by simp)) hu)⟩
    rw [execAll, hu]
    exact ht

/-- Settles O44: none of the commands changes the sweep of the display bank, which the REFRESH emits. -/
theorem refreshRepeatsUntilSwap : Obligations.RefreshRepeatsUntilSwap := by
  intro s is his
  obtain ⟨t, ht, hsweep⟩ := execAll_displaySweep his s
  refine ⟨t, _, ht, execRefresh_eq t, ?_⟩
  rw [emit_trace, hsweep, displaySweep]

end Sys2Proof.Machine
end

section
/-! SUPPORT. The draw-bitmap orchestrator (rules R160 to R166): counts over the expansion of a DRAW, a run that takes
one step for each command issued, what the commands of the expansion leave and append, and the value each pixel of the
bitmap is given. O53 to O56. -/

namespace Sys2Proof.Machine

/-! ### The bitmap -/

theorem bitmapLegal_iff (bitmap : List Nat) :
    bitmapLegal bitmap = true ↔ bitmap.length = 6144 ∧ ∀ v ∈ bitmap, v ≤ 255 := by
  simp [bitmapLegal]

/-- A DRAW on a bitmap that is not legal is refused (rule R161). -/
theorem startDraw_illegal {bitmap : List Nat} (h : ¬ bitmapLegal bitmap = true) (s : State) :
    startDraw bitmap s = .refused .invalidBitmap :=
  if_neg h

/-- Settles O54: a legal bitmap has 6144 elements, none above 255. -/
theorem invalidBitmapRefused : Obligations.InvalidBitmapRefused := by
  intro s bitmap rest hc hi hbad
  refine (step_cons hc hi).trans (startDraw_illegal (fun hlegal => ?_) _)
  obtain ⟨hlen, hle⟩ := (bitmapLegal_iff bitmap).mp hlegal
  rcases hbad with hne | ⟨v, hv, hgt⟩
  · exact hne hlen
  · exact absurd (hle v hv) (Nat.not_le_of_lt hgt)

/-! ### Counts over the expansion -/

/-- One turn of the inner loop counts the pixel's command, and a REFRESH at every R-th column (rule R160). -/
theorem countP_drawColumn (p : Instr → Bool) (interval : Nat) (bitmap : List Nat) (y x : Nat) :
    (drawColumn interval bitmap y x).countP p =
      (p (drawPixel bitmap x y)).toNat + (if interval ∣ x + 1 then 1 else 0) * (p .refresh).toNat := by
  unfold drawColumn
  simp only [Nat.dvd_iff_mod_eq_zero]
  split <;> simp [List.countP_cons, Bool.toNat, Bool.cond_eq_ite, Nat.add_comm]

section Counts

variable {p : Instr → Bool} {b : Bool} {bitmap : List Nat}

/-- The first `n` columns of a row hold `n` pixels and `n / R` REFRESH (rule R162). -/
theorem countP_drawRow (hp : ∀ x y, p (drawPixel bitmap x y) = b) (interval y n : Nat) :
    ((List.range n).flatMap (drawColumn interval bitmap y)).countP p =
      n * b.toNat + n / interval * (p .refresh).toNat := by
  induction n with
  | zero => simp
  | succ n ih =>
    rw [List.range_succ, List.flatMap_append, List.countP_append, ih, List.flatMap_singleton, countP_drawColumn, hp,
      Nat.succ_div]
    ring

/-- The loop nest holds 2048 pixels and `32 × (64 / R)` REFRESH (rule R162). -/
theorem countP_drawBody (hp : ∀ x y, p (drawPixel bitmap x y) = b) (interval : Nat) :
    (drawBody interval bitmap).countP p = 2048 * b.toNat + 32 * (64 / interval) * (p .refresh).toNat := by
  rw [drawBody, List.countP_flatMap, Function.comp_def]
  simp only [countP_drawRow hp, List.map_const', List.length_range, List.sum_replicate, smul_eq_mul]
  ring

/-- The expansion adds a CLEAR and a SWAP to the loop nest (rule R160). -/
theorem countP_drawProgram (hp : ∀ x y, p (drawPixel bitmap x y) = b) (interval : Nat) :
    (drawProgram interval bitmap).countP p =
      (p .clear).toNat + (2048 * b.toNat + 32 * (64 / interval) * (p .refresh).toNat) + (p .swap).toNat := by
  simp [drawProgram, countP_drawBody hp, List.countP_cons, Bool.toNat, Bool.cond_eq_ite, Nat.add_comm,
    Nat.add_left_comm]

end Counts

/-- Settles O53: each count is that of the loop nest and of the two commands around it, and the length counts every
command. -/
theorem drawCommandCounts : Obligations.DrawCommandCounts := by
  intro interval bitmap _
  have hlength := countP_drawProgram (p := fun _ => true) (bitmap := bitmap) (fun _ _ => rfl) interval
  refine ⟨countP_drawProgram (b := false) (fun _ _ => rfl) interval,
    countP_drawProgram (b := false) (fun _ _ => rfl) interval, ?_, ?_, ?_, rfl, List.getLast?_concat⟩
  · simpa [isSetpix] using countP_drawProgram (p := isSetpix) (bitmap := bitmap) (b := true) (fun _ _ => rfl) interval
  · simpa using countP_drawProgram (p := fun i => decide (i = .refresh)) (bitmap := bitmap) (b := false)
      (fun _ _ => rfl) interval
  · rw [List.countP_true] at hlength
    simp only [Bool.toNat_true] at hlength
    omega

/-! ### Running the commands issued -/

/-- A run takes one step, and goes on from the state it answers. -/
theorem run_succ {M : Host.Core} {s t : M.State} (e : M.step s = .next t) (k : Nat) :
    M.run (k + 1) s = M.run k t := by
  rw [Host.Core.run, e]

/-- No command reads or changes what the host issues after it (rule R12). -/
theorem exec_setInputs {i : Instr} {s t : State} (e : exec i s = .next t) (is : List Input) :
    exec i (setInputs s is) = .next (setInputs t is) := by
  have hfault (k : Cause) (w : Cmd) : raiseFault (setInputs s is) k w = setInputs (raiseFault s k w) is := by
    unfold raiseFault
    rw [setInputs_fault]
    split <;> rfl
  cases i with
  | init | quant | clear | swap => exact Host.Outcome.next.inj e ▸ rfl
  | setpix x y r g b =>
    cases hl : coordLegal x y with
    | true =>
      obtain rfl := Host.Outcome.next.inj ((exec_setpix_legal hl r g b s).symm.trans e)
      exact exec_setpix_legal hl r g b (setInputs s is)
    | false =>
      obtain rfl := Host.Outcome.next.inj ((exec_setpix_fault hl r g b s).symm.trans e)
      rw [exec_setpix_fault hl, hfault]
  | refresh =>
    obtain rfl := Host.Outcome.next.inj ((execRefresh_eq s).symm.trans e)
    exact execRefresh_eq (setInputs s is)
  | rdw role plane row colour half =>
    cases hl : indexLegal s.cfg.n role plane row colour half with
    | true =>
      obtain rfl := Host.Outcome.next.inj ((exec_rdw_legal hl).symm.trans e)
      exact exec_rdw_legal (s := setInputs s is) hl
    | false =>
      obtain rfl := Host.Outcome.next.inj ((exec_rdw_fault hl).symm.trans e)
      rw [exec_rdw_fault (s := setInputs s is) hl, hfault]

/-- A command list runs its first command and goes on from the state it answers. -/
theorem execAll_cons_next {i : Instr} {is : List Instr} {s t : State} (e : execAll (i :: is) s = .next t) :
    ∃ u, exec i s = .next u ∧ execAll is u = .next t := by
  obtain ⟨u, hu⟩ := exec_answers i s
  rw [execAll, hu] at e
  exact ⟨u, hu, e⟩

/-- Every command list runs to its end (rules R12, R180). -/
theorem execAll_answers (is : List Instr) (s : State) : ∃ t, execAll is s = .next t := by
  induction is generalizing s with
  | nil => exact ⟨s, rfl⟩
  | cons i is ih =>
    obtain ⟨u, hu⟩ := exec_answers i s
    obtain ⟨t, ht⟩ := ih u
    exact ⟨t, by rw [execAll, hu]; exact ht⟩

/-- What every command of a list keeps, the list keeps. -/
theorem execAll_keeps {P : State → Prop} {is : List Instr}
    (h : ∀ i ∈ is, ∀ s t, P s → exec i s = .next t → P t) {s t : State} (hs : P s) (e : execAll is s = .next t) :
    P t := by
  induction is generalizing s with
  | nil => exact Host.Outcome.next.inj e ▸ hs
  | cons i is ih =>
    obtain ⟨u, hu, ht⟩ := execAll_cons_next e
    exact ih (fun j hj => h j (by simp [hj])) (h i (by simp) s u hs hu) ht

/-- The words of a command list, issued one after another, take one step each and do what the commands do
(rules R12, R88). -/
theorem run_commands {is : List Instr} {s t : State} (hc : configLegal s.cfg = true) (e : execAll is s = .next t)
    (rest : List Input) :
    Host.Core.run core is.length (setInputs s (is.map (fun i => Input.command (encode i)) ++ rest)) =
      .next (setInputs t rest) := by
  induction is generalizing s with
  | nil => exact Host.Outcome.next.inj e ▸ rfl
  | cons i is ih =>
    obtain ⟨u, hu, ht⟩ := execAll_cons_next e
    have hstep := (stepRunsDecodedCommand
      (setInputs s ((i :: is).map (fun j => Input.command (encode j)) ++ rest)) (encode i) _ i hc rfl
      (decodeInvertsEncode i)).trans (exec_setInputs hu _)
    exact (run_succ (M := core) hstep is.length).trans (ih (exec_cfg hu ▸ hc) ht)

/-- A DRAW takes one step for its input and one for each command of its expansion (rule R160). -/
theorem run_draw {s t : State} {bitmap : List Nat} {rest : List Input} (hc : configLegal s.cfg = true)
    (hi : s.inputs = .draw bitmap :: rest) (hb : bitmapLegal bitmap = true)
    (e : execAll (drawProgram s.cfg.drawInterval bitmap) s = .next t) :
    Host.Core.run core ((drawProgram s.cfg.drawInterval bitmap).length + 1) s = .next (setInputs t rest) := by
  have hstart := (step_cons hc hi).trans (startDraw_legal hb (setInputs s rest))
  exact (run_succ (M := core) hstart _).trans (run_commands hc e rest)

/-! ### What the commands before the SWAP leave and append -/

/-- The commands of the loop nest: REFRESH, and the pixels of the panel (rule R160). -/
theorem drawBody_cases {interval : Nat} {bitmap : List Nat} {i : Instr} (h : i ∈ drawBody interval bitmap) :
    i = .refresh ∨ ∃ x y, x < 64 ∧ y < 32 ∧ i = drawPixel bitmap x y := by
  simp only [drawBody, List.mem_flatMap, List.mem_range] at h
  obtain ⟨y, hy, x, hx, hi⟩ := h
  have hcolumn : i = drawPixel bitmap x y ∨ i = .refresh := by
    unfold drawColumn at hi
    split at hi
    · simpa using hi
    · exact .inl (by simpa using hi)
  exact hcolumn.symm.imp_right fun he => ⟨x, y, hx, hy, he⟩

/-- The loop nest draws every pixel of the panel (rule R160). -/
theorem drawPixel_mem_drawBody (interval : Nat) (bitmap : List Nat) {x y : Nat} (hx : x < 64) (hy : y < 32) :
    drawPixel bitmap x y ∈ drawBody interval bitmap := by
  simp only [drawBody, List.mem_flatMap, List.mem_range]
  refine ⟨y, hy, x, hx, ?_⟩
  unfold drawColumn
  split <;> simp

/-- The coordinates of a pixel fit the operand fields of its command (rules R83, R85). -/
theorem toNat_coords {x y : Nat} (hx : x < 64) (hy : y < 32) :
    (BitVec.ofNat 8 x).toNat = x ∧ (BitVec.ofNat 8 y).toNat = y :=
  ⟨Nat.mod_eq_of_lt (by omega), Nat.mod_eq_of_lt (by omega)⟩

theorem coordLegal_drawPixel {x y : Nat} (hx : x < 64) (hy : y < 32) :
    coordLegal (BitVec.ofNat 8 x) (BitVec.ofNat 8 y) = true := by
  obtain ⟨hcolumn, hrow⟩ := toNat_coords hx hy
  rw [coordLegal_iff, hcolumn, hrow]
  exact ⟨hx, hy⟩

/-- The commands of a DRAW before its SWAP: the CLEAR and the loop nest (rule R160). -/
def drawLoad (interval : Nat) (bitmap : List Nat) : List Instr :=
  .clear :: drawBody interval bitmap

theorem drawProgram_eq (interval : Nat) (bitmap : List Nat) :
    drawProgram interval bitmap = drawLoad interval bitmap ++ [.swap] := rfl

theorem changesDisplay_drawLoad {interval : Nat} {bitmap : List Nat} :
    ∀ i ∈ drawLoad interval bitmap, changesDisplay i = false := by
  intro i hi
  rcases List.mem_cons.mp hi with rfl | hi
  · rfl
  · rcases drawBody_cases hi with rfl | ⟨x, y, -, -, rfl⟩ <;> rfl

/-- Before its SWAP a DRAW changes the array, or emits the sweep on display; it does nothing else (rule R160). -/
theorem exec_drawLoad {interval : Nat} {bitmap : List Nat} {i : Instr} (hi : i ∈ drawLoad interval bitmap)
    {s t : State} (e : exec i s = .next t) : (∃ m, t = setBp s m) ∨ t = emit s (displaySweep s) := by
  rcases List.mem_cons.mp hi with rfl | hi
  · exact .inl ⟨_, (Host.Outcome.next.inj e).symm⟩
  · rcases drawBody_cases hi with rfl | ⟨x, y, hx, hy, rfl⟩
    · exact .inr (Host.Outcome.next.inj (e.symm.trans (execRefresh_eq s)))
    · exact .inl ⟨_, Host.Outcome.next.inj (e.symm.trans (exec_setpix_legal (coordLegal_drawPixel hx hy) _ _ _ s))⟩

/-- What a DRAW leaves until its SWAP: the configuration, DISP, RESULT, the fault record and the words on display. -/
structure KeepsFrame (s t : State) : Prop where
  cfg : t.cfg = s.cfg
  disp : t.disp = s.disp
  result : t.result = s.result
  fault : t.fault = s.fault
  fcause : t.fcause = s.fcause
  finfo : t.finfo = s.finfo
  words : ∀ z row c h, InRange s.cfg.n z row c h →
    bpWord t (displayBank s) z row c h = bpWord s (displayBank s) z row c h

theorem KeepsFrame.refl (s : State) : KeepsFrame s s :=
  ⟨rfl, rfl, rfl, rfl, rfl, rfl, fun _ _ _ _ _ => rfl⟩

theorem KeepsFrame.displayBank {s t : State} (h : KeepsFrame s t) : displayBank t = displayBank s :=
  congrArg BitVec.toNat h.disp

theorem KeepsFrame.writeBank {s t : State} (h : KeepsFrame s t) : writeBank t = writeBank s :=
  congrArg (fun d : BitVec 1 => 1 - d.toNat) h.disp

theorem KeepsFrame.trans {s t u : State} (h : KeepsFrame s t) (h' : KeepsFrame t u) : KeepsFrame s u where
  cfg := h'.cfg.trans h.cfg
  disp := h'.disp.trans h.disp
  result := h'.result.trans h.result
  fault := h'.fault.trans h.fault
  fcause := h'.fcause.trans h.fcause
  finfo := h'.finfo.trans h.finfo
  words z row c hf hr := by
    rw [← h.words z row c hf hr, ← h.displayBank]
    exact h'.words z row c hf (h.cfg ▸ hr)

/-- Each command before the SWAP keeps the frame (rules R51, R160). -/
theorem keepsFrame_exec {interval : Nat} {bitmap : List Nat} {i : Instr} (hi : i ∈ drawLoad interval bitmap)
    {s t : State} (e : exec i s = .next t) : KeepsFrame s t := by
  obtain ⟨hinit, -⟩ := (changesDisplay_eq_false_iff i).mp (changesDisplay_drawLoad i hi)
  obtain ⟨hwords, -⟩ := displayBankIsolation i s t hinit e
  rcases exec_drawLoad hi e with ⟨m, rfl⟩ | rfl
  · exact ⟨rfl, rfl, rfl, rfl, rfl, rfl, hwords⟩
  · exact ⟨rfl, rfl, rfl, rfl, rfl, rfl, hwords⟩

/-- The commands before the SWAP together keep the frame. -/
theorem keepsFrame_execAll {interval : Nat} {bitmap : List Nat} {s t : State}
    (e : execAll (drawLoad interval bitmap) s = .next t) : KeepsFrame s t :=
  execAll_keeps (P := KeepsFrame s) (fun _ hi _ _ hs ht => hs.trans (keepsFrame_exec hi ht)) (KeepsFrame.refl s) e

/-- A command but SWAP and INIT appends the sweep on display if it is REFRESH, and nothing otherwise
(rules R59, R154). -/
theorem exec_trace {i : Instr} (hi : changesDisplay i = false) {s t : State} (e : exec i s = .next t) :
    t.trace = s.trace ++ if i = .refresh then displaySweep s else [] := by
  split
  · next h =>
    subst h
    obtain rfl := Host.Outcome.next.inj ((execRefresh_eq s).symm.trans e)
    rfl
  · next h =>
    obtain ⟨hinit, -⟩ := (changesDisplay_eq_false_iff i).mp hi
    obtain ⟨es, htrace, -, -, hes⟩ := traceExplainsThePins i s t hinit e
    rw [htrace, hes h]

/-- Commands but SWAP and INIT append the sweep on display as often as they hold a REFRESH (rule R154). -/
theorem execAll_trace {is : List Instr} (his : ∀ i ∈ is, changesDisplay i = false) {s t : State}
    (e : execAll is s = .next t) :
    t.trace = s.trace ++ (List.replicate (is.countP (fun i => decide (i = .refresh))) (displaySweep s)).flatten := by
  induction is generalizing s with
  | nil => exact Host.Outcome.next.inj e ▸ (List.append_nil s.trace).symm
  | cons i is ih =>
    obtain ⟨u, hu, ht⟩ := execAll_cons_next e
    have hi := his i (by simp)
    rw [ih (fun j hj => his j (by simp [hj])) ht, exec_displaySweep hi hu, exec_trace hi hu]
    by_cases h : i = .refresh <;> simp [h, List.replicate_succ]

/-- A DRAW is its load and then a SWAP (rule R160). -/
theorem execAll_drawProgram {interval : Nat} {bitmap : List Nat} {s u : State}
    (e : execAll (drawLoad interval bitmap) s = .next u) :
    execAll (drawProgram interval bitmap) s = .next (setDisp u (1#1 - u.disp)) := by
  rw [drawProgram_eq, execAll_append, e]
  rfl

/-- Settles O56: only the REFRESH append events, each the sweep of the bank that stays on display until the SWAP. -/
theorem drawSweepsOldFrame : Obligations.DrawSweepsOldFrame := by
  intro s bitmap rest hc hi hb
  obtain ⟨u, hu⟩ := execAll_answers (drawLoad s.cfg.drawInterval bitmap) s
  refine ⟨_, _, run_draw hc hi hb (execAll_drawProgram hu), ?_, execRefresh_eq _, rfl⟩
  have hcount : (drawLoad s.cfg.drawInterval bitmap).countP (fun i => decide (i = .refresh)) =
      32 * (64 / s.cfg.drawInterval) := by
    simpa [drawLoad] using countP_drawBody (p := fun i => decide (i = .refresh)) (bitmap := bitmap) (b := false)
      (fun _ _ => rfl) s.cfg.drawInterval
  rw [setInputs_trace, setDisp_trace, execAll_trace changesDisplay_drawLoad hu, hcount]

/-! ### The value of each pixel -/

/-- The quantized value of a bitmap element (rules R54, R100). -/
def drawnLevel (cfg : Config) (bitmap : List Nat) (x y : Nat) (c : Colour) : Nat :=
  (lutAt cfg (BitVec.ofNat 8 (bitmapAt bitmap x y (colourIdx c)))).toNat

theorem channelOf_bitmapAt (bitmap : List Nat) (x y : Nat) (c : Colour) :
    channelOf (BitVec.ofNat 8 (bitmapAt bitmap x y 0)) (BitVec.ofNat 8 (bitmapAt bitmap x y 1))
      (BitVec.ofNat 8 (bitmapAt bitmap x y 2)) c = BitVec.ofNat 8 (bitmapAt bitmap x y (colourIdx c)) := by
  cases c <;> rfl

section Pixels

variable {interval : Nat} {bitmap : List Nat} {x y : Nat} {s t : State}

/-- The command of a pixel ORs its quantized values in (rules R112, R160). -/
theorem pixValue_drawPixel (hlut : lutLegal s.cfg = true) (hx : x < 64) (hy : y < 32)
    (e : exec (drawPixel bitmap x y) s = .next t) (c : Colour) :
    pixValue t (writeBank s) x y c = pixValue s (writeBank s) x y c ||| drawnLevel s.cfg bitmap x y c := by
  obtain ⟨hlx, hly⟩ := (coordLegal_iff _ _).mp (coordLegal_drawPixel hx hy)
  have hvalue := pixValue_setpix hlut hlx hly e c
  obtain ⟨hcolumn, hrow⟩ := toNat_coords hx hy
  rwa [hcolumn, hrow, channelOf_bitmapAt] at hvalue

/-- The command of a pixel leaves every other pixel (rules R112, R121). -/
theorem pixValue_drawPixel_of_ne {x' y' : Nat} (hx : x < 64) (hy : y < 32) (hx' : x' < 64) (hy' : y' < 32)
    (hne : (x', y') ≠ (x, y)) (e : exec (drawPixel bitmap x y) s = .next t) (c : Colour) :
    pixValue t (writeBank s) x' y' c = pixValue s (writeBank s) x' y' c := by
  obtain ⟨hlx, hly⟩ := (coordLegal_iff _ _).mp (coordLegal_drawPixel hx hy)
  obtain ⟨hcolumn, hrow⟩ := toNat_coords hx hy
  refine pixValue_congr (exec_cfg e) fun z hz => pixBit_setpix_of_ne hlx hly e hz hx' hy' ?_ c
  rwa [hcolumn, hrow]

/-- A command of the loop nest ORs a pixel's quantized values in if it is the pixel's, and leaves it otherwise. -/
theorem pixValue_exec_drawBody (hlut : lutLegal s.cfg = true) (hx : x < 64) (hy : y < 32) {i : Instr}
    (hi : i ∈ drawBody interval bitmap) (e : exec i s = .next t) (c : Colour) :
    pixValue t (writeBank s) x y c = pixValue s (writeBank s) x y c |||
      if i = drawPixel bitmap x y then drawnLevel s.cfg bitmap x y c else 0 := by
  split
  · next h =>
    subst h
    exact pixValue_drawPixel hlut hx hy e c
  · next hne =>
    rw [Nat.or_zero]
    rcases drawBody_cases hi with rfl | ⟨x', y', hx', hy', rfl⟩
    · obtain rfl := Host.Outcome.next.inj ((execRefresh_eq s).symm.trans e)
      rfl
    · refine pixValue_drawPixel_of_ne hx' hy' hx hy (fun h => hne ?_) e c
      obtain ⟨rfl, rfl⟩ := Prod.mk.inj h
      rfl

/-- Commands of the loop nest, in any order and however often, OR a pixel's quantized values in if the pixel's command
is among them: the order of the traversal and the place of the REFRESH do not matter (rules R112, R160). -/
theorem pixValue_execAll_drawBody (hlut : lutLegal s.cfg = true) (hx : x < 64) (hy : y < 32) {is : List Instr}
    (his : ∀ i ∈ is, i ∈ drawBody interval bitmap) (e : execAll is s = .next t) (c : Colour) :
    pixValue t (writeBank s) x y c = pixValue s (writeBank s) x y c |||
      if drawPixel bitmap x y ∈ is then drawnLevel s.cfg bitmap x y c else 0 := by
  induction is generalizing s with
  | nil => simp [← Host.Outcome.next.inj e]
  | cons i is ih =>
    obtain ⟨u, hu, ht⟩ := execAll_cons_next e
    have hi := his i (by simp)
    have hkeep := keepsFrame_exec (List.mem_cons_of_mem _ hi) hu
    have htail := ih (hkeep.cfg ▸ hlut) (fun j hj => his j (by simp [hj])) ht
    rw [hkeep.writeBank, hkeep.cfg, pixValue_exec_drawBody hlut hx hy hi hu] at htail
    rw [htail, Nat.or_assoc]
    by_cases hhead : i = drawPixel bitmap x y
    · subst hhead
      by_cases hmem : drawPixel bitmap x y ∈ is <;> simp [hmem]
    · simp [hhead, Ne.symm hhead]

/-- Before its SWAP a DRAW leaves the quantized bitmap in the write bank (rules R117, R160). -/
theorem pixValue_drawLoad (hlut : lutLegal s.cfg = true) (hx : x < 64) (hy : y < 32)
    (e : execAll (drawLoad interval bitmap) s = .next t) (c : Colour) :
    pixValue t (writeBank s) x y c = drawnLevel s.cfg bitmap x y c := by
  obtain ⟨u, hu, ht⟩ := execAll_cons_next e
  obtain ⟨u', hu', -, hzero⟩ := clearedPixelsReadZero s
  obtain rfl := Host.Outcome.next.inj (hu.symm.trans hu')
  have hkeep := keepsFrame_exec (List.mem_cons_self : .clear ∈ drawLoad interval bitmap) hu
  have hvalue := pixValue_execAll_drawBody (hkeep.cfg ▸ hlut) hx hy (fun _ h => h) ht c
  rwa [hzero x hx y hy c, if_pos (drawPixel_mem_drawBody interval bitmap hx hy), Nat.zero_or, hkeep.cfg,
    hkeep.writeBank] at hvalue

end Pixels

/-- Settles O55: the load leaves the quantized bitmap in the write bank and the old frame on display, and the SWAP
exchanges the two. -/
theorem drawShowsBitmap : Obligations.DrawShowsBitmap := by
  intro s bitmap rest hc hi hb
  obtain ⟨-, hlut, -⟩ := (configLegal_iff s.cfg).mp hc
  obtain ⟨u, hu⟩ := execAll_answers (drawLoad s.cfg.drawInterval bitmap) s
  have hkeep := keepsFrame_execAll hu
  have hdisplay : displayBank (setDisp u (1#1 - u.disp)) = writeBank s := (displayBank_swap u).trans hkeep.writeBank
  have hwrite : writeBank (setDisp u (1#1 - u.disp)) = displayBank s := (writeBank_swap u).trans hkeep.displayBank
  refine ⟨setInputs (setDisp u (1#1 - u.disp)) rest, run_draw hc hi hb (execAll_drawProgram hu), rfl,
    fun x hx y hy c => ?_, fun z row c h hr => ?_, hdisplay, hkeep.result, hkeep.fault, hkeep.fcause, hkeep.finfo⟩
  · exact (congrArg (fun k => pixValue u k x y c) hdisplay).trans (pixValue_drawLoad hlut hx hy hu c)
  · exact (congrArg (fun k => bpWord u k z row c h) hwrite).trans (hkeep.words z row c h hr)

end Sys2Proof.Machine
end

section
/-! SUPPORT. INIT from any state as the reset transition (rules R170, R210). With it the statement of 45_system.md is
settled: O17. -/

namespace Sys2Proof.Machine

/-- INIT performs the reset transition, "exactly as the reset input does" (rule R170). -/
theorem exec_init (s : State) : exec .init s = .next (resetBlock s) := rfl

/-- After the reset transition every word reads 0, whatever the array held (rules R20, R210). -/
theorem bpWord_resetBlock (s : State) (k z row c h : Nat) : bpWord (resetBlock s) k z row c h = 0#32 := rfl

/-- STATUS after the reset transition is that of the reset state: N is all it shows of the state before
(rules R32, R38, R210). -/
theorem readStatus_resetBlock (s : State) : readStatus (resetBlock s) = readStatus (State.resetWith s.cfg) := rfl

/-- Settles O17: INIT answers what the reset transition leaves, field by field, with the STATUS of the reset state. -/
theorem initPerformsReset : Obligations.InitPerformsReset := by
  intro s hp hn
  obtain ⟨-, -, -, -, -, -, -, hstatus, -, -⟩ := resetLeavesSpecValues s.cfg hn hp
  exact ⟨resetBlock s, exec_init s, bpWord_resetBlock s, resetBlock_disp s, resetBlock_fault s, resetBlock_fcause s,
    resetBlock_finfo s, resetBlock_result s,
    fun sig => ⟨levelOf_resetBlock_out hp sig, levelOf_resetBlock_dirv hp sig⟩,
    fun _ hno => getLsbD_resetBlock_of_no_signal hno, resetBlock_trace s, resetBlock_cfg s, resetBlock_inputs s,
    (readStatus_resetBlock s).trans hstatus⟩

end Sys2Proof.Machine
end

section
/-! SUPPORT. The fault record (rules R29, R181, R184, R185): a word that is no command, a command whose operands are
in range, one with an operand out of range, and a command from states that differ in the record only. With them the
statements of 60_exceptions.md are settled: O8, O50, O51, O52. -/

namespace Sys2Proof.Machine

/-! ### A word that is no command -/

/-- Settles O8: the step delivers the word, and the word is recorded if it is the first fault. -/
theorem illegalWordRecordsFault : Obligations.IllegalWordRecordsFault := by
  intro s w rest r hc hi hw
  have hstep : step s = .next (raiseFault (setInputs s rest) .illegalCommand w) :=
    (step_cons hc hi).trans (runCommand_error hw (setInputs s rest))
  refine ⟨fun h0 => ?_, fun h1 => ?_⟩
  · rw [hstep, raiseFault_first (setInputs s rest) .illegalCommand w h0]
    rfl
  · rw [hstep, raiseFault_later (setInputs s rest) .illegalCommand w h1]
    rfl

/-! ### What a command does to the record -/

/-- A command other than INIT with its operands in range leaves the fault record (rules R181, R184). -/
theorem exec_record_of_wellFormed {i : Instr} {s t : State} (hinit : i ≠ .init)
    (hwf : i.WellFormed s.cfg.n = true) (e : exec i s = .next t) :
    t.fault = s.fault ∧ t.fcause = s.fcause ∧ t.finfo = s.finfo := by
  rcases exec_cases i s with ⟨hi, -⟩ | ⟨v, h⟩ | ⟨m, h, -⟩ | ⟨-, h⟩ | ⟨-, h⟩ | ⟨k, -, hill⟩
  case inl => exact absurd hi hinit
  case inr.inr.inr.inr.inr => exact absurd (hwf.symm.trans hill) (by decide)
  all_goals
    obtain rfl := Host.Outcome.next.inj (h.symm.trans e)
    exact ⟨rfl, rfl, rfl⟩

/-- A command with an operand out of range is a SETPIX that raises COORD_RANGE or an RDW that raises INDEX_RANGE, with
its own word (rules R113, R120, R181). -/
theorem exec_of_not_wellFormed {i : Instr} {s : State} (hill : i.WellFormed s.cfg.n = false) :
    ∃ k, exec i s = .next (raiseFault s k (encode i))
      ∧ ((∃ x y r g b, i = .setpix x y r g b ∧ causeCode k = 2#2)
        ∨ ∃ role plane row colour half, i = .rdw role plane row colour half ∧ causeCode k = 3#2) := by
  cases i with
  | init | quant | clear | swap | refresh => exact absurd hill (by simp [Instr.WellFormed])
  | setpix x y r g b =>
    exact ⟨.coordRange, exec_setpix_fault hill r g b s, .inl ⟨x, y, r, g, b, rfl, rfl⟩⟩
  | rdw role plane row colour half =>
    exact ⟨.indexRange, exec_rdw_fault hill, .inr ⟨role, plane, row, colour, half, rfl, rfl⟩⟩

/-- Settles O50: with operands in range a command leaves the record, and otherwise it raises a later fault. -/
theorem firstFaultIsKept : Obligations.FirstFaultIsKept := by
  intro i s t hinit h1 e
  cases hwf : i.WellFormed s.cfg.n with
  | true =>
    obtain ⟨hfault, hcause, hinfo⟩ := exec_record_of_wellFormed hinit hwf e
    exact ⟨hfault.trans h1, hcause, hinfo⟩
  | false =>
    obtain ⟨k, hk, -⟩ := exec_of_not_wellFormed hwf
    rw [raiseFault_later s k (encode i) h1] at hk
    obtain rfl := Host.Outcome.next.inj (hk.symm.trans e)
    exact ⟨h1, rfl, rfl⟩

/-- Settles O52: with operands in range FAULT stays 0, and otherwise the command records its first fault. -/
theorem faultsExactlyOutOfRange : Obligations.FaultsExactlyOutOfRange := by
  intro i s t hinit h0 e
  cases hwf : i.WellFormed s.cfg.n with
  | true =>
    obtain ⟨hfault, -, -⟩ := exec_record_of_wellFormed hinit hwf e
    have hclean : t.fault ≠ 1#1 := by rw [hfault, h0]; decide
    exact ⟨iff_of_false hclean (by decide), fun h => absurd h hclean⟩
  | false =>
    obtain ⟨k, hk, hcause⟩ := exec_of_not_wellFormed hwf
    obtain rfl := Host.Outcome.next.inj (hk.symm.trans e)
    refine ⟨iff_of_true (raiseFault_fault s k (encode i)) rfl, fun _ => ?_⟩
    rw [raiseFault_first s k (encode i) h0]
    exact ⟨rfl, rfl, hcause⟩

/-! ### States that differ in the record only -/

/-- A state with the fault record of another. -/
def withRecordOf (s r : State) : State :=
  { s with fault := r.fault, fcause := r.fcause, finfo := r.finfo }

theorem sameButRecord_iff (s t : State) : SameButRecord s t ↔ t = withRecordOf s t :=
  Iff.rfl

theorem SameButRecord.symm {s t : State} (h : SameButRecord s t) : SameButRecord t s :=
  (congrArg (withRecordOf · s) h).symm

theorem SameButRecord.trans {s t u : State} (h : SameButRecord s t) (h' : SameButRecord t u) :
    SameButRecord s u :=
  calc u = withRecordOf t u := h'
    _ = withRecordOf (withRecordOf s t) u := congrArg (withRecordOf · u) h

/-- A fault changes the record only (rule R184). -/
theorem sameButRecord_raiseFault (s : State) (k : Cause) (w : Cmd) : SameButRecord s (raiseFault s k w) := by
  rcases BitVec.eq_zero_or_eq_one s.fault with h0 | h1
  · rw [raiseFault_first s k w h0]
    rfl
  · rw [raiseFault_later s k w h1]
    rfl

/-- A command leads from states that differ in the record only to such states: `raiseFault` alone reads the record, and
it changes nothing else (rule R185). -/
theorem exec_withRecordOf (i : Instr) (s r : State) :
    ∃ t t', exec i s = .next t ∧ exec i (withRecordOf s r) = .next t' ∧ SameButRecord t t' := by
  have hraise (k : Cause) (w : Cmd) : SameButRecord (raiseFault s k w) (raiseFault (withRecordOf s r) k w) :=
    have hsame : SameButRecord s (withRecordOf s r) := rfl
    (sameButRecord_raiseFault s k w).symm.trans (hsame.trans (sameButRecord_raiseFault (withRecordOf s r) k w))
  cases i with
  | init | quant | clear | swap => exact ⟨_, _, rfl, rfl, rfl⟩
  | setpix x y r' g b =>
    cases hl : coordLegal x y with
    | true => exact ⟨_, _, exec_setpix_legal hl r' g b s, exec_setpix_legal hl r' g b (withRecordOf s r), rfl⟩
    | false =>
      exact ⟨_, _, exec_setpix_fault hl r' g b s, exec_setpix_fault hl r' g b (withRecordOf s r), hraise _ _⟩
  | refresh => exact ⟨_, _, execRefresh_eq s, execRefresh_eq (withRecordOf s r), rfl⟩
  | rdw role plane row colour half =>
    cases hl : indexLegal s.cfg.n role plane row colour half with
    | true => exact ⟨_, _, exec_rdw_legal hl, exec_rdw_legal (s := withRecordOf s r) hl, rfl⟩
    | false => exact ⟨_, _, exec_rdw_fault hl, exec_rdw_fault (s := withRecordOf s r) hl, hraise _ _⟩

/-- Settles O51: the second state is the first with a record of its own. -/
theorem faultGatesNothing : Obligations.FaultGatesNothing := by
  intro i s s' t t' h e e'
  obtain ⟨u, u', hu, hu', hsame⟩ := exec_withRecordOf i s s'
  rw [← (sameButRecord_iff s s').mp h] at hu'
  obtain rfl := Host.Outcome.next.inj (hu.symm.trans e)
  obtain rfl := Host.Outcome.next.inj (hu'.symm.trans e')
  exact hsame

end Sys2Proof.Machine
end

section
/-! SUPPORT. The block with nothing issued (rules R196, R213) and the two causes of a reset (rule R211). With them the
statements of 70_reset_and_hazards.md are settled: O9, O12. -/

namespace Sys2Proof.Machine

/-- Settles O9: the step by an empty list of inputs. -/
theorem idleBlockHoldsState : Obligations.IdleBlockHoldsState :=
  fun _ hc hi => step_nil hc hi

/-- The word of INIT, the first of the worked encodings (rules R86, R92). -/
theorem decode_init_word : decode 0x0100000000000000#64 = .ok .init := workedEncodings.1

/-- The reset input is INIT on the same state (rules R170, R211). -/
theorem deliver_reset (s : State) : deliver .reset s = exec .init s := (exec_init s).symm

/-- A step from a state with its inputs given anew delivers the first of them (rules R9, R12). -/
theorem step_setInputs_cons {s : State} (hc : configLegal s.cfg = true) (input : Input) (rest : List Input) :
    step (setInputs s (input :: rest)) = deliver input (setInputs s rest) :=
  step_cons (s := setInputs s (input :: rest)) hc (setInputs_inputs s (input :: rest))

/-- Settles O12: delivered, the reset input is INIT, and the word of INIT decodes to it. -/
theorem resetInputIsInit : Obligations.ResetInputIsInit := by
  intro s rest hc
  constructor
  · exact (step_setInputs_cons hc .reset rest).trans (deliver_reset (setInputs s rest))
  · exact (step_setInputs_cons hc (.command _) rest).trans (runCommand_ok decode_init_word (setInputs s rest))

end Sys2Proof.Machine
end
